-- ==== Sys2Proof/Word.lean ====
section
/-! DEFINITION. Word types: the widths of spec R8 that the block's registers and fields have. -/

namespace Sys2Proof

/-- One cell of `INBUF`: an 8-bit character code (R20, R61). -/
abbrev Byte := BitVec 8

/-- `CURW` = 32 bits: `CUR`, `ERRPOS`, `INLEN`, frame `start` and `end` (R8). -/
abbrev Pos := BitVec 32

/-- `VALW` = 64 bits, signed two's complement: literals, results, `VALUE` (R8, R12). -/
abbrev Value := BitVec 64

/-- `VERW` = 3 bits: a packet's `version` field (R8, R91). -/
abbrev Version := BitVec 3

/-- `TYPEW` = 3 bits: a packet's `type_id` field (R8, R91). -/
abbrev TypeId := BitVec 3

/-- The 4 value bits of a literal group (R93). -/
abbrev Nibble := BitVec 4

/-- `LENW` = 15 bits: the total-length field `L` (R8, R94). -/
abbrev Length := BitVec 15

/-- `CNTW` = 11 bits: the sub-packet count field `N` (R8, R95). -/
abbrev Count := BitVec 11

end Sys2Proof
end

