-- ==== Sys2Proof/Syntax.lean ====
section
/-! DEFINITION. The instructions: one constructor per row of spec/opcode_table.json. An instruction is one packet
head as a PARSE step decodes it (R3, R15): a whole literal packet, or an operator's header with its `L` or `N`. -/

namespace Sys2Proof

/-- The seven operations of R99, the type ids other than 4. -/
inductive OpKind where
  | sum
  | prod
  | min
  | max
  | gt
  | lt
  | eq
deriving DecidableEq, Repr

/-- The 15 instructions of R99. `version` is payload (R92). A literal's groups are its nibbles in stream order; the
continuation flags are not operands: every group but the last has 1, the last has 0 (R93). -/
inductive Instr where
  | lit (version : Version) (groups : List Nibble)
  | sumL (version : Version) (length : Length)
  | sumN (version : Version) (count : Count)
  | prodL (version : Version) (length : Length)
  | prodN (version : Version) (count : Count)
  | minL (version : Version) (length : Length)
  | minN (version : Version) (count : Count)
  | maxL (version : Version) (length : Length)
  | maxN (version : Version) (count : Count)
  | gtL (version : Version) (length : Length)
  | gtN (version : Version) (count : Count)
  | ltL (version : Version) (length : Length)
  | ltN (version : Version) (count : Count)
  | eqL (version : Version) (length : Length)
  | eqN (version : Version) (count : Count)
deriving DecidableEq, Repr

end Sys2Proof
end

