-- ==== Sys2Proof/WellFormed.lean ====
section
/-! DEFINITION. Which terms of `Instr` have an encoding, and which of those the spec calls legal. -/

namespace Sys2Proof

/-- The instruction has an encoding: a literal has `k >= 1` groups (R93). Every operator head has one, `L = 0` and
`N = 0` too: such a head is decoded, and its meaning takes `MalformedLength` (R165). -/
def Instr.encodable : Instr → Bool
  | .lit _ groups => !groups.isEmpty
  | .sumL _ _ | .prodL _ _ | .minL _ _ | .maxL _ _ | .gtL _ _ | .ltL _ _ | .eqL _ _ => true
  | .sumN _ _ | .prodN _ _ | .minN _ _ | .maxN _ _ | .gtN _ _ | .ltN _ _ | .eqN _ _ => true

/-- R97: `nib_0 * 16^(k-1) + ... + nib_(k-1)`, the value a group string stands for, as an exact integer. -/
def groupsNumber : List Nibble → Nat
  | [] => 0
  | g :: gs => g.toNat * 16 ^ gs.length + groupsNumber gs

/-- The instruction is legal by its own fields: encodable, a literal at most `2^63 - 1` (R98, R104), `L` and `N` not 0
(R103). -/
def Instr.wellFormed : Instr → Bool
  | .lit _ groups => !groups.isEmpty && decide (groupsNumber groups < 2 ^ 63)
  | .sumL _ l | .prodL _ l | .minL _ l | .maxL _ l | .gtL _ l | .ltL _ l | .eqL _ l => l != 0#15
  | .sumN _ n | .prodN _ n | .minN _ n | .maxN _ n | .gtN _ n | .ltN _ n | .eqN _ n => n != 0#11

end Sys2Proof
end

