-- ==== Sys2Proof/Decode.lean ====
section
/-! DEFINITION. Bit fields, the decoder (total on any bit sequence), the opcode table over the 7-bit head word, the
encoder, and the words of the table. Bits are in transmission order: the first bit of a list is the most significant
bit of the field that starts there (R10, R65). -/

namespace Sys2Proof

/-! ### Bit fields -/

/-- `Field` of R11 over the bits of a field: `sum of b_i * 2^(n-1-i)`. -/
def bitsValue : List Bool → Nat
  | [] => 0
  | b :: bs => b.toNat * 2 ^ bs.length + bitsValue bs

/-- The `n` bits of a number, most significant first (R64, R65). -/
def bitsOf : Nat → Nat → List Bool
  | 0, _ => []
  | n + 1, v => v.testBit n :: bitsOf n v

/-- `BitRead` of R11 on the bits that remain: the whole `n`-bit field and what follows it, or nothing when fewer
than `n` bits are left (R71: a partial field is never used). -/
def readField (n : Nat) (bs : List Bool) : Option (BitVec n × List Bool) :=
  if n ≤ bs.length then some (BitVec.ofNat n (bitsValue (bs.take n)), bs.drop n) else none

/-! ### Type ids -/

/-- R99: the `type_id` of an operation. -/
def OpKind.typeId : OpKind → TypeId
  | .sum => 0#3
  | .prod => 1#3
  | .min => 2#3
  | .max => 3#3
  | .gt => 5#3
  | .lt => 6#3
  | .eq => 7#3

/-- R99, R102: the operation of a `type_id`; 4 is the literal and no operation. -/
def OpKind.ofTypeId (t : TypeId) : Option OpKind :=
  if t = 0#3 then some .sum
  else if t = 1#3 then some .prod
  else if t = 2#3 then some .min
  else if t = 3#3 then some .max
  else if t = 5#3 then some .gt
  else if t = 6#3 then some .lt
  else if t = 7#3 then some .eq
  else none

/-- The `.L` instruction of an operation (R99, offset 6 = 0). -/
def Instr.ofTotal : OpKind → Version → Length → Instr
  | .sum => .sumL
  | .prod => .prodL
  | .min => .minL
  | .max => .maxL
  | .gt => .gtL
  | .lt => .ltL
  | .eq => .eqL

/-- The `.N` instruction of an operation (R99, offset 6 = 1). -/
def Instr.ofCount : OpKind → Version → Count → Instr
  | .sum => .sumN
  | .prod => .prodN
  | .min => .minN
  | .max => .maxN
  | .gt => .gtN
  | .lt => .ltN
  | .eq => .eqN

/-- The three formats of R90. -/
inductive Form where
  | literal (version : Version) (groups : List Nibble)
  | total (kind : OpKind) (version : Version) (length : Length)
  | counted (kind : OpKind) (version : Version) (count : Count)
deriving DecidableEq, Repr

/-- The format of an instruction, with its fields (R90, R99). -/
def Instr.form : Instr → Form
  | .lit v gs => .literal v gs
  | .sumL v l => .total .sum v l
  | .sumN v n => .counted .sum v n
  | .prodL v l => .total .prod v l
  | .prodN v n => .counted .prod v n
  | .minL v l => .total .min v l
  | .minN v n => .counted .min v n
  | .maxL v l => .total .max v l
  | .maxN v n => .counted .max v n
  | .gtL v l => .total .gt v l
  | .gtN v n => .counted .gt v n
  | .ltL v l => .total .lt v l
  | .ltN v n => .counted .lt v n
  | .eqL v l => .total .eq v l
  | .eqN v n => .counted .eq v n

/-! ### Literal values -/

/-- The largest literal value, `2^63 - 1` (R151). -/
def maxLiteral : Nat := 2 ^ 63 - 1

/-- The loop of R150 from an accumulated value `val`: after every group `val <- val * 16 + nibble`, and nothing once
`val` has passed `2^63 - 1`. -/
def accumulate : Nat → List Nibble → Option Nat
  | val, [] => some val
  | val, g :: gs => if val * 16 + g.toNat ≤ maxLiteral then accumulate (val * 16 + g.toNat) gs else none

/-- The value of a literal's groups, "starting from 0" (R150); none is the overflow of R151. -/
def literalValue (groups : List Nibble) : Option Nat := accumulate 0 groups

/-! ### The decoder -/

/-- Why a decode stops with no instruction. -/
inductive Reject where
  /-- Fewer bits are left than the next field needs (R131, R150, R160 to R162). -/
  | endOfBits
  /-- R150 corner (c): the literal is cut, and the groups that are present already pass `2^63 - 1`. -/
  | literalOverflow
deriving DecidableEq, Repr

/-- What the decoder answers: an instruction and the bits after its head, or a rejection by name. -/
inductive Decoded where
  | instr (i : Instr) (rest : List Bool)
  | reject (r : Reject)
deriving DecidableEq, Repr

/-- The groups of a literal that a bit sequence holds: all of them, or those present before the bits run out. -/
inductive Groups where
  | complete (groups : List Nibble) (rest : List Bool)
  | cut (groups : List Nibble)
deriving DecidableEq, Repr

/-- One more group in front. -/
def Groups.push (g : Nibble) : Groups → Groups
  | .complete gs rest => .complete (g :: gs) rest
  | .cut gs => .cut (g :: gs)

/-- R93, R150: 5-bit groups, each a continuation flag and a nibble, up to and with the first whose flag is 0. -/
def readGroups : List Bool → Groups
  | c :: n3 :: n2 :: n1 :: n0 :: rest =>
    let g : Nibble := BitVec.ofNat 4 (bitsValue [n3, n2, n1, n0])
    if c then (readGroups rest).push g else .complete [g] rest
  | _ => .cut []

/-- The literal's body (R150). A complete literal is an instruction whatever its value: its meaning makes the range
test. Of a cut one, the range test of the groups present comes before the missing group (R150 corner c). -/
def decodeLiteral (version : Version) (bs : List Bool) : Decoded :=
  match readGroups bs with
  | .complete gs rest => .instr (.lit version gs) rest
  | .cut gs => .reject (if literalValue gs = none then .literalOverflow else .endOfBits)

/-- The operator's head (R160 to R162): the length-type flag, then `L` or `N`. -/
def decodeOperator (k : OpKind) (version : Version) (bs : List Bool) : Decoded :=
  match readField 1 bs with
  | none => .reject .endOfBits
  | some (lengthType, rest) =>
    if lengthType = 0#1 then
      match readField 15 rest with
      | none => .reject .endOfBits
      | some (l, rest') => .instr (Instr.ofTotal k version l) rest'
    else
      match readField 11 rest with
      | none => .reject .endOfBits
      | some (n, rest') => .instr (Instr.ofCount k version n) rest'

/-- R131: the 6 header bits as one unit, then the literal or the operator decoder by `type_id`. -/
def decode (bs : List Bool) : Decoded :=
  match readField 6 bs with
  | none => .reject .endOfBits
  | some (h, rest) =>
    match OpKind.ofTypeId (h.extractLsb' 0 3) with
    | none => decodeLiteral (h.extractLsb' 3 3) rest
    | some k => decodeOperator k (h.extractLsb' 3 3) rest

/-- The length of what one PARSE step decodes (R26, R96): `6 + 5k`, 22 or 18 bits. -/
def Instr.headBits (i : Instr) : Nat :=
  match i.form with
  | .literal _ gs => 6 + 5 * gs.length
  | .total _ _ _ => 22
  | .counted _ _ _ => 18

/-! ### The encoder -/

/-- R93: the groups of a literal, flag 1 on every group but the last. -/
def encodeGroups : List Nibble → List Bool
  | [] => []
  | g :: gs => (!gs.isEmpty) :: bitsOf 4 g.toNat ++ encodeGroups gs

/-- The bits of an instruction, from the tables of R91 to R95. -/
def encode (i : Instr) : List Bool :=
  match i.form with
  | .literal v gs => bitsOf 3 v.toNat ++ bitsOf 3 4 ++ encodeGroups gs
  | .total k v l => bitsOf 3 v.toNat ++ bitsOf 3 k.typeId.toNat ++ [false] ++ bitsOf 15 l.toNat
  | .counted k v n => bitsOf 3 v.toNat ++ bitsOf 3 k.typeId.toNat ++ [true] ++ bitsOf 11 n.toNat

/-! ### The opcode table -/

/-- A row of opcode_table.json: the head word `H7` is the row's instruction iff `(H7 & mask) == match` (R100). -/
structure TableRow where
  mnemonic : String
  pattern : BitVec 7
  mask : BitVec 7
deriving DecidableEq, Repr

/-- The 15 rows of opcode_table.json. -/
def opcodeTable : List TableRow :=
  [⟨"LIT", 0x08#7, 0x0E#7⟩, ⟨"SUM.L", 0x00#7, 0x0F#7⟩, ⟨"SUM.N", 0x01#7, 0x0F#7⟩, ⟨"PROD.L", 0x02#7, 0x0F#7⟩,
    ⟨"PROD.N", 0x03#7, 0x0F#7⟩, ⟨"MIN.L", 0x04#7, 0x0F#7⟩, ⟨"MIN.N", 0x05#7, 0x0F#7⟩, ⟨"MAX.L", 0x06#7, 0x0F#7⟩] ++
  [⟨"MAX.N", 0x07#7, 0x0F#7⟩, ⟨"GT.L", 0x0A#7, 0x0F#7⟩, ⟨"GT.N", 0x0B#7, 0x0F#7⟩, ⟨"LT.L", 0x0C#7, 0x0F#7⟩,
    ⟨"LT.N", 0x0D#7, 0x0F#7⟩, ⟨"EQ.L", 0x0E#7, 0x0F#7⟩, ⟨"EQ.N", 0x0F#7, 0x0F#7⟩]

/-- The row matches the head word (R100). -/
def TableRow.hits (r : TableRow) (h7 : BitVec 7) : Bool := h7 &&& r.mask == r.pattern

/-- The mnemonic of R99 and R107. -/
def Instr.mnemonic : Instr → String
  | .lit _ _ => "LIT"
  | .sumL _ _ => "SUM.L"
  | .sumN _ _ => "SUM.N"
  | .prodL _ _ => "PROD.L"
  | .prodN _ _ => "PROD.N"
  | .minL _ _ => "MIN.L"
  | .minN _ _ => "MIN.N"
  | .maxL _ _ => "MAX.L"
  | .maxN _ _ => "MAX.N"
  | .gtL _ _ => "GT.L"
  | .gtN _ _ => "GT.N"
  | .ltL _ _ => "LT.L"
  | .ltN _ _ => "LT.N"
  | .eqL _ _ => "EQ.L"
  | .eqN _ _ => "EQ.N"

/-! ### Words of the table -/

/-- Bits `from`, `from + 1`, ... of a number, `n` of them, lowest first. -/
def bitsUp : Nat → Nat → Nat → List Bool
  | 0, _, _ => []
  | n + 1, start, v => v.testBit start :: bitsUp n (start + 1) v

/-- The bit stream of a table word (log 17): the low 7 bits of `w` are the head word `H7`, whose bit 6 is stream
offset 0 (R100); bit `7 + j` of `w`, below `nbits`, is stream offset `7 + j`; every bit after that is 0. -/
def tableStream (nbits w : Nat) : List Bool :=
  bitsOf 7 (w % 2 ^ nbits) ++ bitsUp (nbits - 7) 7 w ++ List.replicate 32 false

/-- The instruction the decoder reads from a table word with zeros after it. -/
def decodeTableWord (nbits w : Nat) : Option Instr :=
  match decode (tableStream nbits w) with
  | .instr i _ => some i
  | .reject _ => none

end Sys2Proof
end

