-- ==== Sys2Proof/Config.lean ====
section
/-! DEFINITION. What an implementation fixes (the open parameters of spec R8) and the free values. -/

namespace Sys2Proof.Config

/-- `HexCase` of R8: which letter cases the unpacker accepts. The spec's value is `both` (R122, D1); U1 lets a model
cover an upper-case-only block by the other. -/
inductive HexCase where
  | both
  | upperOnly
deriving DecidableEq, Repr

/-- The open parameters of R8. They are data, so that every statement over all states holds for every choice of
them (log 1, DESIGN CHOICE). -/
structure Params where
  /-- `MAX_HEX`: capacity of the input buffer in characters. -/
  maxHex : Nat
  /-- `MAX_DEPTH`: greatest number of operator frames open at once. -/
  maxDepth : Nat
  /-- `HexCase`. -/
  hexCase : HexCase
deriving DecidableEq, Repr

/-- The defaults of R8: `MAX_HEX = 4096`, `MAX_DEPTH = 256`, both letter cases. -/
def defaults : Params := { maxHex := 4096, maxDepth := 256, hexCase := .both }

/-- The ranges R8 gives: `1 <= MAX_HEX <= 2^28`, `MAX_DEPTH >= 1`. -/
abbrev Params.legal (p : Params) : Prop := 1 ≤ p.maxHex ∧ p.maxHex ≤ 2 ^ 28 ∧ 1 ≤ p.maxDepth

/-- FREE VALUE (log 2): what cell `i` of `INBUF` holds after power-on, before the host writes it. R37: "the buffer is
not cleared by reset ... A model should take them as arbitrary bytes." It has no body, so no proof can use a value of it. -/
opaque inbufPowerOn : Nat → Byte

end Sys2Proof.Config
end

