-- ==== Sys2Proof/Machine/State.lean ====
section
/-! DEFINITION. The state of the block (R20) as plain data, the packet tree, the two agents' turns, the reasons a step
can stop, and the state after reset (R37). -/

namespace Sys2Proof.Machine

/-- `PHASE` (R22). The reserved code 7 is no value of it (U12, log 8). -/
inductive Phase where
  | idle
  | unpack
  | parse
  | foldV
  | foldE
  | done
  | err
deriving DecidableEq, Repr

/-- `ERRCODE` (R221). The reserved codes 8 to 15 are no values of it (U12, log 8). -/
inductive ErrCode where
  | none
  | invalidHexDigit
  | unexpectedEndOfBits
  | malformedLength
  | arityMismatch
  | unknownOperator
  | recursionLimitExceeded
  | arithmeticOverflow
deriving DecidableEq, Repr

mutual

/-- A packet of R13, with its version. An operator's `type_id` is any 3-bit value here, so that `Eval` has a packet to
raise `UnknownOperator` on (R189); the parser never builds one with type 4. -/
inductive Packet where
  | literal (version : Version) (value : Value)
  | operator (version : Version) (typeId : TypeId) (subs : Packets)
deriving DecidableEq, Repr

/-- The ordered list of an operator's sub-packets (R13, R168). -/
inductive Packets where
  | nil
  | cons (head : Packet) (tail : Packets)
deriving DecidableEq, Repr

end

/-- What delimits an operator's sub-packets: `mode` of R33 with the field that mode uses. -/
inductive Extent where
  /-- mode 0, total-length: `end`, the position just past the region. -/
  | region (stop : Pos)
  /-- mode 1, count: the number of sub-packets still to be delivered. -/
  | count (left : Count)
deriving DecidableEq, Repr

/-- A frame (R33): an operator whose sub-packets are not yet all parsed. -/
structure Frame where
  ver : Version
  typeId : TypeId
  extent : Extent
  /-- Position of the first bit of the operator packet. -/
  start : Pos
  /-- The sub-packets delivered so far, in encoded order. -/
  subs : List Packet
deriving DecidableEq, Repr

/-- The cells of `INBUF` that the host has written: index and byte, indexes strictly rising. A cell that is not listed
has not been written (log 2, log 3). -/
abbrev Memory := List Host.Cell

/-- A move of the host (R270). Register numbers are those of R29. -/
inductive HostMove where
  | writeInbuf (index : Nat) (byte : Byte)
  | readInbuf (index : Nat)
  | writeReg (number : Nat) (data : BitVec 32)
  | readReg (number : Nat)
  | reset
deriving DecidableEq, Repr

/-- Which agent moves next (R270, log 4). -/
inductive Turn where
  | decoder
  | host (move : HostMove)
deriving DecidableEq, Repr

/-- The state: the elements of R20 and, last, the model's own `params`, `turns` and `hostData`. `NBITS` is the length
of `bits`, `DEPTH` the length of `stack` (log 7). -/
structure State where
  /-- `INBUF`. -/
  inbuf : Memory
  /-- `INLEN`. -/
  inlen : Pos
  /-- `PHASE`. -/
  phase : Phase
  /-- `ERRCODE`. -/
  errcode : ErrCode
  /-- `VSUM_VALID`. -/
  vsumValid : Bool
  /-- `VALUE_VALID`. -/
  valueValid : Bool
  /-- `VSUM`. -/
  vsum : BitVec 32
  /-- `VALUE`. -/
  value : Value
  /-- `CUR`. -/
  cur : Pos
  /-- `ERRPOS`. -/
  errpos : Pos
  /-- `BITS`, position 0 first. -/
  bits : List Bool
  /-- `STACK`, the innermost frame (the top) first. -/
  stack : List Frame
  /-- `ROOT`. -/
  root : Option Packet
  /-- MODEL's own (log 1): the open parameters of R8; no step writes them. -/
  params : Config.Params
  /-- MODEL's own (log 4): the turns still to come; when there is none left the decoder runs on. -/
  turns : List Turn
  /-- MODEL's own (log 6): what the last host read returned. -/
  hostData : BitVec 64
deriving DecidableEq, Repr

/-- The model's stops. The block's own faults (R221) are no stops: a step takes them as next states. -/
inductive Fault where
  /-- Raised by the FOLD_V and FOLD_E steps when `ROOT` is none. R181 gives the step no effect there ("then `ROOT` is a
  packet, by rule R134"); no state that meets `State.Inv` raises it. Safe: the model stops (log 12). -/
  | rootMissing
deriving DecidableEq, Repr

/-- The refusals. -/
inductive Refusal where
  /-- Raised by an arm of `exec` whose instruction has no meaning yet. Safe: the model stops. No arm raises it now. -/
  | notModelled (mnemonic : String)
deriving DecidableEq, Repr

/-- The state after a power-on reset (R37, R261). `INBUF` has no written cell: every cell holds its free value. The
model's own fields: the default parameters of R8, no turns, no read yet (log 1, log 4, log 6). -/
def State.reset : State where
  inbuf := []
  inlen := 0#32
  phase := .idle
  errcode := .none
  vsumValid := false
  valueValid := false
  vsum := 0#32
  value := 0#64
  cur := 0#32
  errpos := 0#32
  bits := []
  stack := []
  root := none
  params := Config.defaults
  turns := []
  hostData := 0#64

end Sys2Proof.Machine
end

