-- ==== Sys2Proof/Machine/Flags.lean ====
section
/-! DEFINITION. The status fields and their codes. These are the only flags of the block, and no packet reads or
writes one (R23). -/

namespace Sys2Proof.Machine

/-- The code of a phase in `STATUS[2:0]` (R22). -/
def Phase.code : Phase → BitVec 3
  | .idle => 0#3
  | .unpack => 1#3
  | .parse => 2#3
  | .foldV => 3#3
  | .foldE => 4#3
  | .done => 5#3
  | .err => 6#3

/-- `BUSY` (R22): the decoder has an enabled step. -/
def Phase.busy : Phase → Bool
  | .unpack | .parse | .foldV | .foldE => true
  | .idle | .done | .err => false

/-- The code of a fault in `STATUS[11:8]` (R221). -/
def ErrCode.code : ErrCode → BitVec 4
  | .none => 0#4
  | .invalidHexDigit => 1#4
  | .unexpectedEndOfBits => 2#4
  | .malformedLength => 3#4
  | .arityMismatch => 4#4
  | .unknownOperator => 5#4
  | .recursionLimitExceeded => 6#4
  | .arithmeticOverflow => 7#4

/-- `STATUS` (R23): `[2:0]` PHASE, `[3]` VSUM_VALID, `[4]` VALUE_VALID, `[11:8]` ERRCODE, the reserved bits 0. -/
def State.status (s : State) : BitVec 32 :=
  0#20 ++ s.errcode.code ++ 0#3 ++ BitVec.ofBool s.valueValid ++ BitVec.ofBool s.vsumValid ++ s.phase.code

/-- `NBITS` (R30), 32 bits. -/
def State.nbits (s : State) : Pos := BitVec.ofNat 32 s.bits.length

/-- `DEPTH` (R31). -/
def State.depth (s : State) : Nat := s.stack.length

end Sys2Proof.Machine
end

