-- ==== Sys2Proof/Machine/Ops.lean ====
section
/-! DEFINITION. The named operations over memory, the frame stack and the registers; taking a fault, as one shared
operation (there is no return from one: R226); fetching a packet head. -/

namespace Sys2Proof.Machine

/-! ### INBUF -/

/-- The byte written to cell `i`, if one was. -/
def Memory.read? (i : Nat) : Memory → Option Byte
  | [] => none
  | (j, b) :: m => if j = i then some b else Memory.read? i m

/-- Write `b` to cell `i`, keeping the indexes strictly rising. -/
def Memory.write (i : Nat) (b : Byte) : Memory → Memory
  | [] => [(i, b)]
  | (j, c) :: m =>
    if i < j then (i, b) :: (j, c) :: m
    else if i = j then (i, b) :: m
    else (j, c) :: Memory.write i b m

/-- The canonical form: indexes strictly rising. An unlisted cell has no written byte, so no entry can equal what it
reads as (log 3). -/
def Memory.wf : Memory → Bool
  | [] => true
  | [_] => true
  | (i, _) :: (j, b) :: m => decide (i < j) && Memory.wf ((j, b) :: m)

/-- What cell `i` holds: the byte written, or the free value of power-on (R37, log 2). -/
def State.inbufByte (s : State) (i : Nat) : Byte :=
  (Memory.read? i s.inbuf).getD (Config.inbufPowerOn i)

/-! ### Taking a fault -/

/-- `raise F(pos)` (R222): `PHASE`, `ERRCODE`, `ERRPOS`, and nothing else. It is applied to the state before the
faulting step, so that step keeps none of its writes. -/
def takeFault (e : ErrCode) (pos : Pos) (s : State) : State :=
  { s with phase := .err, errcode := e, errpos := pos }

/-! ### The cursor and the frame stack -/

/-- `CUR` after a head of `n` bits (R26). In the states of a run this never wraps (log 15). -/
def State.curAfter (s : State) (n : Nat) : Pos := s.cur + BitVec.ofNat 32 n

/-- Push a frame and move the cursor past the head (R161, R162). -/
def pushFrame (f : Frame) (headBits : Nat) (s : State) : State :=
  { s with stack := f :: s.stack, cur := s.curAfter headBits }

/-- A list of packets as an operator's sub-packets, in the same order (R168). -/
def Packets.ofList : List Packet → Packets
  | [] => .nil
  | p :: ps => .cons p (Packets.ofList ps)

/-- The operator packet of a frame that is complete (R133). -/
def Frame.close (f : Frame) : Packet := .operator f.ver f.typeId (Packets.ofList f.subs)

/-- `F.subs <- F.subs ++ [p]` (R133). -/
def Frame.append (f : Frame) (p : Packet) : Frame := { f with subs := f.subs ++ [p] }

/-- What `Deliver` comes to (R133). -/
inductive Delivered where
  /-- A frame is still open: the stack now. -/
  | waiting (stack : List Frame)
  /-- `DEPTH` reached 0: the root packet. -/
  | root (p : Packet)
  /-- A sub-packet ended past its region: the `start` of that frame. -/
  | overshoot (start : Pos)
deriving DecidableEq, Repr

/-- The loop of `Deliver(p)` (R133) with `CUR` at `cur`, over the frames from the innermost outwards. -/
def deliverTo (cur : Pos) : List Frame → Packet → Delivered
  | [], p => .root p
  | f :: rest, p =>
    match f.extent with
    | .region stop =>
      if stop < cur then .overshoot f.start
      else if cur < stop then .waiting (f.append p :: rest)
      else deliverTo cur rest (f.append p).close
    | .count left =>
      if 1 < left.toNat then .waiting ({ f.append p with extent := .count (left - 1#11) } :: rest)
      else deliverTo cur rest (f.append p).close

/-- `CUR <- cur` and `Deliver(p)` (R150, R133, R134). On an overshoot the step faults and keeps none of its writes
(R137). -/
def deliver (p : Packet) (cur : Pos) (s : State) : State :=
  match deliverTo cur s.stack p with
  | .waiting stack => { s with cur := cur, stack := stack }
  | .root r => { s with cur := cur, stack := [], root := some r, phase := .foldV }
  | .overshoot start => takeFault .malformedLength start s

/-! ### Fetch -/

/-- Decode the head at `CUR` (R131, R136): the bits from position `CUR` on. -/
def State.fetch (s : State) : Decoded := decode (s.bits.drop s.cur.toNat)

/-- A head that cannot be decoded faults with the start of its packet (R131, R150, R160 to R162, R223). -/
def takeReject (r : Reject) (s : State) : State :=
  match r with
  | .endOfBits => takeFault .unexpectedEndOfBits s.cur s
  | .literalOverflow => takeFault .arithmeticOverflow s.cur s

/-- Zeros up to a multiple of 4 bits (R63). -/
def padTo4 (bs : List Bool) : List Bool := bs ++ List.replicate ((4 - bs.length % 4) % 4) false

/-- The bit sequence `bs` with `word` from position `at` on and nothing after it but padding. -/
def placeBits (pos : Nat) (bs word : List Bool) : List Bool :=
  padTo4 ((bs ++ List.replicate (pos - bs.length) false).take pos ++ word)

end Sys2Proof.Machine
end

