-- ==== Sys2Proof/Machine/Operands.lean ====
section
/-! DEFINITION. The operand forms: a literal's groups (its value is `literalValue` of Decode.lean), the two operator
heads with their `L` or `N`, and the sub-packets an operator's evaluation reads, with its arity and its range. -/

namespace Sys2Proof.Machine

/-- `end = s + 22 + L` (R97, R161). -/
def regionEnd (start : Pos) (l : Length) : Pos := start + 22#32 + l.setWidth 32

/-- `HeadL` (R161): the empty-operator test, the depth test (R164, log 13), then the push. -/
def headL (k : OpKind) (version : Version) (l : Length) (s : State) : Host.Outcome State Fault Refusal :=
  if l = 0#15 then .next (takeFault .malformedLength s.cur s)
  else if s.params.maxDepth ≤ s.depth then .next (takeFault .recursionLimitExceeded s.cur s)
  else
    .next (pushFrame
      { ver := version, typeId := k.typeId, extent := .region (regionEnd s.cur l), start := s.cur, subs := [] } 22 s)

/-- `HeadN` (R162): the empty-operator test, the depth test (R164, log 13), then the push. -/
def headN (k : OpKind) (version : Version) (n : Count) (s : State) : Host.Outcome State Fault Refusal :=
  if n = 0#11 then .next (takeFault .malformedLength s.cur s)
  else if s.params.maxDepth ≤ s.depth then .next (takeFault .recursionLimitExceeded s.cur s)
  else
    .next (pushFrame
      { ver := version, typeId := k.typeId, extent := .count n, start := s.cur, subs := [] } 18 s)

/-- The number of sub-packets. -/
def Packets.length : Packets → Nat
  | .nil => 0
  | .cons _ ps => ps.length + 1

/-- The arity column of R185: at least one for the aggregates, exactly two for the comparisons (R190). -/
def arityOk : OpKind → Nat → Bool
  | .sum, n | .prod, n | .min, n | .max, n => decide (1 ≤ n)
  | .gt, n | .lt, n | .eq, n => decide (n = 2)

/-- `Chk64` (R186): an exact result in the signed 64-bit range, or `ArithmeticOverflow`. -/
def chk64 (r : Int) : Except ErrCode Int :=
  if -2 ^ 63 ≤ r ∧ r ≤ 2 ^ 63 - 1 then .ok r else .error .arithmeticOverflow

end Sys2Proof.Machine
end

