-- ==== Sys2Proof/Machine/Aggregates.lean ====
section
/-! DEFINITION. The aggregate family: `SUM`, `PROD`, `MIN`, `MAX` in both length forms. Each instruction has its
parse-time effect, which `exec` calls (R161, R162), and its evaluation over the values of its sub-packets in encoded
order, which the FOLD_E step uses (R187): an exact integer, range-checked by `chk64` afterwards. -/

namespace Sys2Proof.Machine

/-- `SUM.L` (R200), its parse-time effect: `HeadL` with its type id. -/
def execSumL (version : Version) (length : Length) (s : State) : Host.Outcome State Fault Refusal :=
  headL .sum version length s

/-- `SUM.N` (R201), its parse-time effect: `HeadN` with its type id. -/
def execSumN (version : Version) (count : Count) (s : State) : Host.Outcome State Fault Refusal :=
  headN .sum version count s

/-- `PROD.L` (R203), its parse-time effect: `HeadL` with its type id. -/
def execProdL (version : Version) (length : Length) (s : State) : Host.Outcome State Fault Refusal :=
  headL .prod version length s

/-- `PROD.N` (R204), its parse-time effect: `HeadN` with its type id. -/
def execProdN (version : Version) (count : Count) (s : State) : Host.Outcome State Fault Refusal :=
  headN .prod version count s

/-- `MIN.L` (R206), its parse-time effect: `HeadL` with its type id. -/
def execMinL (version : Version) (length : Length) (s : State) : Host.Outcome State Fault Refusal :=
  headL .min version length s

/-- `MIN.N` (R207), its parse-time effect: `HeadN` with its type id. -/
def execMinN (version : Version) (count : Count) (s : State) : Host.Outcome State Fault Refusal :=
  headN .min version count s

/-- `MAX.L` (R209), its parse-time effect: `HeadL` with its type id. -/
def execMaxL (version : Version) (length : Length) (s : State) : Host.Outcome State Fault Refusal :=
  headL .max version length s

/-- `MAX.N` (R210), its parse-time effect: `HeadN` with its type id. -/
def execMaxN (version : Version) (count : Count) (s : State) : Host.Outcome State Fault Refusal :=
  headN .max version count s

/-- Evaluation of `SUM` (R187, R200): the exact sum; R190 where there is no sub-packet. -/
def evalSum : List Int → Except ErrCode Int
  | [] => .error .arityMismatch
  | x :: xs => .ok (xs.foldl (fun a b => a + b) x)

/-- Evaluation of `PROD` (R187, R203): the exact product; R190 where there is no sub-packet. -/
def evalProd : List Int → Except ErrCode Int
  | [] => .error .arityMismatch
  | x :: xs => .ok (xs.foldl (fun a b => a * b) x)

/-- Evaluation of `MIN` (R187, R206): the least; R190 where there is no sub-packet. -/
def evalMin : List Int → Except ErrCode Int
  | [] => .error .arityMismatch
  | x :: xs => .ok (xs.foldl (fun a b => if b < a then b else a) x)

/-- Evaluation of `MAX` (R187, R209): the greatest; R190 where there is no sub-packet. -/
def evalMax : List Int → Except ErrCode Int
  | [] => .error .arityMismatch
  | x :: xs => .ok (xs.foldl (fun a b => if a < b then b else a) x)

end Sys2Proof.Machine
end

