-- ==== Sys2Proof/Machine/Comparisons.lean ====
section
/-! DEFINITION. The comparison family: `GT`, `LT`, `EQ` in both length forms. Each instruction has its parse-time
effect, which `exec` calls (R161, R162), and its evaluation over the values of its two sub-packets, the first in the
stream first (R185, R187). -/

namespace Sys2Proof.Machine

/-- `GT.L` (R212), its parse-time effect: `HeadL` with its type id. -/
def execGtL (version : Version) (length : Length) (s : State) : Host.Outcome State Fault Refusal :=
  headL .gt version length s

/-- `GT.N` (R213), its parse-time effect: `HeadN` with its type id. -/
def execGtN (version : Version) (count : Count) (s : State) : Host.Outcome State Fault Refusal :=
  headN .gt version count s

/-- `LT.L` (R214), its parse-time effect: `HeadL` with its type id. -/
def execLtL (version : Version) (length : Length) (s : State) : Host.Outcome State Fault Refusal :=
  headL .lt version length s

/-- `LT.N` (R215), its parse-time effect: `HeadN` with its type id. -/
def execLtN (version : Version) (count : Count) (s : State) : Host.Outcome State Fault Refusal :=
  headN .lt version count s

/-- `EQ.L` (R216), its parse-time effect: `HeadL` with its type id. -/
def execEqL (version : Version) (length : Length) (s : State) : Host.Outcome State Fault Refusal :=
  headL .eq version length s

/-- `EQ.N` (R217), its parse-time effect: `HeadN` with its type id. -/
def execEqN (version : Version) (count : Count) (s : State) : Host.Outcome State Fault Refusal :=
  headN .eq version count s

/-- Evaluation of `GT` (R187, R212): 1 if `x_0 > x_1` else 0; R190 where there are not exactly two sub-packets. -/
def evalGt : List Int → Except ErrCode Int
  | [x, y] => .ok (if y < x then 1 else 0)
  | _ => .error .arityMismatch

/-- Evaluation of `LT` (R187, R214): 1 if `x_0 < x_1` else 0; R190 where there are not exactly two sub-packets. -/
def evalLt : List Int → Except ErrCode Int
  | [x, y] => .ok (if x < y then 1 else 0)
  | _ => .error .arityMismatch

/-- Evaluation of `EQ` (R187, R216): 1 if `x_0 = x_1` else 0; R190 where there are not exactly two sub-packets. -/
def evalEq : List Int → Except ErrCode Int
  | [x, y] => .ok (if x = y then 1 else 0)
  | _ => .error .arityMismatch

end Sys2Proof.Machine
end

