-- ==== Sys2Proof/Machine/Literal.lean ====
section
/-! DEFINITION. The literal family: `LIT` (R150). -/

namespace Sys2Proof.Machine

/-- `LIT` (R150): accumulate the value, `ArithmeticOverflow` at the packet's start when it passes `2^63 - 1` (R151);
otherwise move the cursor `6 + 5k` bits on and deliver the literal. -/
def execLit (version : Version) (groups : List Nibble) (s : State) : Host.Outcome State Fault Refusal :=
  match literalValue groups with
  | none => .next (takeFault .arithmeticOverflow s.cur s)
  | some v => .next (deliver (.literal version (BitVec.ofNat 64 v)) (s.curAfter (6 + 5 * groups.length)) s)

end Sys2Proof.Machine
end

