-- ==== Sys2Proof/Machine/Dispatch.lean ====
section
/-! DEFINITION. `exec`: one arm per instruction. The meaning of an instruction is what the PARSE step does with its
head (R131); what an operator evaluates to is `Packet.eval` (R187, log 10). -/

namespace Sys2Proof.Machine

def exec (i : Instr) (s : State) : Host.Outcome State Fault Refusal :=
  match i with
  | .lit version groups => Sys2Proof.Machine.execLit version groups s
  | .sumL version length => Sys2Proof.Machine.execSumL version length s
  | .sumN version count => Sys2Proof.Machine.execSumN version count s
  | .prodL version length => Sys2Proof.Machine.execProdL version length s
  | .prodN version count => Sys2Proof.Machine.execProdN version count s
  | .minL version length => Sys2Proof.Machine.execMinL version length s
  | .minN version count => Sys2Proof.Machine.execMinN version count s
  | .maxL version length => Sys2Proof.Machine.execMaxL version length s
  | .maxN version count => Sys2Proof.Machine.execMaxN version count s
  | .gtL version length => Sys2Proof.Machine.execGtL version length s
  | .gtN version count => Sys2Proof.Machine.execGtN version count s
  | .ltL version length => Sys2Proof.Machine.execLtL version length s
  | .ltN version count => Sys2Proof.Machine.execLtN version count s
  | .eqL version length => Sys2Proof.Machine.execEqL version length s
  | .eqN version count => Sys2Proof.Machine.execEqN version count s

end Sys2Proof.Machine
end

