-- ==== Sys2Proof/Machine/Evaluator.lean ====
section
/-! DEFINITION. The Evaluator (R185 to R194): `Eval` over the packet tree, and the FOLD_E step. -/

namespace Sys2Proof.Machine

/-- The exact result of an operation on its operands (R187, `case t of`). -/
def combine : OpKind → List Int → Except ErrCode Int
  | .sum => evalSum
  | .prod => evalProd
  | .min => evalMin
  | .max => evalMax
  | .gt => evalGt
  | .lt => evalLt
  | .eq => evalEq

/-- The result of an operator node from the values of its sub-packets: exact, then in range (R186, R187). -/
def opResult (k : OpKind) (xs : List Int) : Except ErrCode Int :=
  match combine k xs with
  | .error e => .error e
  | .ok r => chk64 r

mutual

/-- `Eval(p)` (R187), total on every packet: the type test, the arity test, the sub-packets left to right, then the
range of the node's own result. -/
def Packet.eval : Packet → Except ErrCode Int
  | .literal _ v => .ok v.toInt
  | .operator _ t subs =>
    match OpKind.ofTypeId t with
    | none => .error .unknownOperator
    | some k =>
      if arityOk k subs.length then
        match subs.evalAll with
        | .error e => .error e
        | .ok xs => opResult k xs
      else .error .arityMismatch

/-- The values of sub-packets in encoded order; the first fault met ends it (R187). -/
def Packets.evalAll : Packets → Except ErrCode (List Int)
  | .nil => .ok []
  | .cons p ps =>
    match p.eval with
    | .error e => .error e
    | .ok x =>
      match ps.evalAll with
      | .error e => .error e
      | .ok xs => .ok (x :: xs)

end

/-- The FOLD_E step (R188). A fault of `Eval` has no position: `ERRPOS` is 0 (R222, R223, log 14). -/
def foldEStep (s : State) : Host.Outcome State Fault Refusal :=
  match s.root with
  | none => .fault .rootMissing
  | some p =>
    match p.eval with
    | .error e => .next (takeFault e 0#32 s)
    | .ok v => .next { s with value := BitVec.ofInt 64 v, valueValid := true, phase := .done }

end Sys2Proof.Machine
end

