-- ==== Sys2Proof/Machine/HostPort.lean ====
section
/-! DEFINITION. The host's moves (R270): register and `INBUF` access, START, reset. A write that the block drops is the
identity (U16); a read changes nothing but `hostData`, the data it returns (log 6). -/

namespace Sys2Proof.Machine

/-- A host write of `INBUF[i]` (R62): dropped while BUSY and for `i >= MAX_HEX`. -/
def State.writeInbuf (i : Nat) (b : Byte) (s : State) : State :=
  if s.phase.busy = false ∧ i < s.params.maxHex then { s with inbuf := Memory.write i b s.inbuf } else s

/-- What a host read of `INBUF[i]` returns (R62): the cell, or 0 for `i >= MAX_HEX`. -/
def State.readInbuf (i : Nat) (s : State) : Byte := if i < s.params.maxHex then s.inbufByte i else 0#8

/-- A host write of `INLEN` (R25): dropped while BUSY and above `MAX_HEX`. -/
def State.writeInlen (v : Pos) (s : State) : State :=
  if s.phase.busy = false ∧ v.toNat ≤ s.params.maxHex then { s with inlen := v } else s

/-- START (R271): dropped while BUSY; otherwise a new message from a clean state. -/
def State.start (s : State) : State :=
  if s.phase.busy then s
  else
    { s with
      cur := 0#32, errpos := 0#32, errcode := .none, vsum := 0#32, value := 0#64, vsumValid := false,
      valueValid := false, bits := [], stack := [], root := none, phase := .unpack }

/-- The reset action (R261), in any phase: every element as R37 but `INBUF`, which is not changed. The model's own
fields are not the block's and stay (log 21). -/
def State.resetMove (s : State) : State :=
  { s with
    inlen := 0#32, phase := .idle, errcode := .none, vsumValid := false, valueValid := false, vsum := 0#32,
    value := 0#64, cur := 0#32, errpos := 0#32, bits := [], stack := [], root := none }

/-- What a host read of a register returns (R29), 32-bit registers zero-extended (log 6); numbers 7 and above read 0. -/
def State.readReg (n : Nat) (s : State) : BitVec 64 :=
  match n with
  | 1 => s.status.setWidth 64
  | 2 => s.inlen.setWidth 64
  | 3 => s.vsum.setWidth 64
  | 4 => s.value
  | 5 => s.cur.setWidth 64
  | 6 => s.errpos.setWidth 64
  | _ => 0#64

/-- A host write of a register (R24, R25, R29): `CTRL` with bit 0 set is START, `INLEN` stores, every other write has no
effect. -/
def State.writeReg (n : Nat) (data : BitVec 32) (s : State) : State :=
  match n with
  | 0 => if data.getLsbD 0 then s.start else s
  | 2 => s.writeInlen data
  | _ => s

/-- One move of the host (R270). -/
def hostMove (m : HostMove) (s : State) : State :=
  match m with
  | .writeInbuf i b => s.writeInbuf i b
  | .readInbuf i => { s with hostData := (s.readInbuf i).setWidth 64 }
  | .writeReg n data => s.writeReg n data
  | .readReg n => { s with hostData := s.readReg n }
  | .reset => s.resetMove

/-- The host's writes of characters to `INBUF` from index `i` on (R262, step 3). -/
def loadMoves : Nat → List Byte → List HostMove
  | _, [] => []
  | i, c :: cs => .writeInbuf i c :: loadMoves (i + 1) cs

/-- The host's procedure for one message (R262, steps 3 to 5): the characters, their number, START. -/
def messageMoves (cs : List Byte) : List HostMove :=
  loadMoves 0 cs ++ [.writeReg 2 (BitVec.ofNat 32 cs.length), .writeReg 0 1#32]

/-- Several moves, one after another. -/
def hostMoves : List HostMove → State → State
  | [], s => s
  | m :: ms, s => hostMoves ms (hostMove m s)

end Sys2Proof.Machine
end

