-- ==== Sys2Proof/Machine/Unpacker.lean ====
section
/-! DEFINITION. The Bit Unpacker (R120 to R125): `HexVal` and the UNPACK step. -/

namespace Sys2Proof.Machine

/-- `HexVal(c)` (R122): the value of a hexadecimal digit's ASCII code, or nothing. An upper-case-only block (`HexCase`,
U1) takes no `a` to `f`. -/
def hexVal (hexCase : Config.HexCase) (c : Byte) : Option Nibble :=
  if 0x30 ≤ c.toNat ∧ c.toNat ≤ 0x39 then some (BitVec.ofNat 4 (c.toNat - 0x30))
  else if 0x41 ≤ c.toNat ∧ c.toNat ≤ 0x46 then some (BitVec.ofNat 4 (c.toNat - 0x41 + 10))
  else if hexCase = .both ∧ 0x61 ≤ c.toNat ∧ c.toNat ≤ 0x66 then some (BitVec.ofNat 4 (c.toNat - 0x61 + 10))
  else none

/-- What unpacking comes to: the bits, or the index of the first invalid character (R123). -/
inductive Unpacked where
  | bits (bs : List Bool)
  | invalid (index : Nat)
deriving DecidableEq, Repr

/-- Unpack `n` characters from index `i` on: 4 bits each, most significant first, characters in order (R63, R64,
R121). -/
def unpackFrom (s : State) : Nat → Nat → Unpacked
  | 0, _ => .bits []
  | n + 1, i =>
    match hexVal s.params.hexCase (s.inbufByte i) with
    | none => .invalid i
    | some d =>
      match unpackFrom s n (i + 1) with
      | .invalid j => .invalid j
      | .bits bs => .bits (bitsOf 4 d.toNat ++ bs)

/-- The UNPACK step (R121): all of `INBUF[0..INLEN-1]`, or `InvalidHexDigit` at the least invalid index. -/
def unpackStep (s : State) : State :=
  match unpackFrom s s.inlen.toNat 0 with
  | .invalid i => takeFault .invalidHexDigit (BitVec.ofNat 32 i) s
  | .bits bs => { s with bits := bs, phase := .parse }

end Sys2Proof.Machine
end

