-- ==== Sys2Proof/Machine/VersionSum.lean ====
section
/-! DEFINITION. The Version Summer (R180 to R183): `VSumOf` over the packet tree, and the FOLD_V step. -/

namespace Sys2Proof.Machine

mutual

/-- `VSumOf(p)` (R180), an unsigned integer; it has no failure (R182). -/
def Packet.vsumOf : Packet → Nat
  | .literal v _ => v.toNat
  | .operator v _ subs => v.toNat + subs.vsumAll

/-- The sum of `VSumOf` over sub-packets. -/
def Packets.vsumAll : Packets → Nat
  | .nil => 0
  | .cons p ps => p.vsumOf + ps.vsumAll

end

/-- The FOLD_V step (R181). In the states of a run the sum fits 32 bits (R9). -/
def foldVStep (s : State) : Host.Outcome State Fault Refusal :=
  match s.root with
  | none => .fault .rootMissing
  | some p => .next { s with vsum := BitVec.ofNat 32 p.vsumOf, vsumValid := true, phase := .foldE }

end Sys2Proof.Machine
end

