-- ==== Sys2Proof/Machine/Step.lean ====
section
/-! DEFINITION. One step of the machine: the turn of the decoder or of the host. -/

namespace Sys2Proof.Machine

/-- The PARSE step (R131): decode the head at `CUR` and run its instruction. -/
def parseStep (s : State) : Host.Outcome State Fault Refusal :=
  match s.fetch with
  | .instr i _ => exec i s
  | .reject r => .next (takeReject r s)

/-- The decoder's step (R22): in IDLE, DONE and ERR it has none and waits (log 5). -/
def decoderStep (s : State) : Host.Outcome State Fault Refusal :=
  match s.phase with
  | .idle | .done | .err => .next s
  | .unpack => .next (unpackStep s)
  | .parse => parseStep s
  | .foldV => foldVStep s
  | .foldE => foldEStep s

/-- One step: the next turn's (R270); with no turn left, the decoder's (log 4). -/
def step (s : State) : Host.Outcome State Fault Refusal :=
  match s.turns with
  | [] => decoderStep s
  | .decoder :: ts => decoderStep { s with turns := ts }
  | .host m :: ts => .next (hostMove m { s with turns := ts })

/-- `s` with an instruction of the opcode table as the head at `CUR` in `BITS`, zeros after it, the phase PARSE and no
turn pending, so that the next step decodes and runs it (log 16). -/
def State.withFetchWord (s : State) (nbits w : Nat) : State :=
  { s with phase := .parse, turns := [], bits := placeBits s.cur.toNat s.bits (tableStream nbits w) }

end Sys2Proof.Machine
end

