-- ==== Sys2Proof/Machine/Contract.lean ====
section
/-! DEFINITION. The source's recursive contract of the Packet Parser (R130, R139): `parse(bits, offset)` gives the new
offset and a packet, or the fault met first. It is not run by the machine (the frame stack of R131 to R134 is normative);
it is what the stack machine is stated to agree with (R139, U7). -/

namespace Sys2Proof.Machine

/-- What the recursive parse answers: `(new_offset, packet)`, a fault with its position, or that the recursion bound was
too small. -/
inductive Parsed where
  | ok (pos : Nat) (p : Packet)
  | fault (e : ErrCode) (pos : Nat)
  | outOfFuel
deriving DecidableEq, Repr

mutual

/-- `parse(bits, pos)` (R130) with `depth` operators open around it (D18). The first argument bounds the recursion. -/
def parsePacket (maxDepth : Nat) (bits : List Bool) : Nat → Nat → Nat → Parsed
  | 0, _, _ => .outOfFuel
  | fuel + 1, depth, pos =>
    match decode (bits.drop pos) with
    | .reject .endOfBits => .fault .unexpectedEndOfBits pos
    | .reject .literalOverflow => .fault .arithmeticOverflow pos
    | .instr i _ =>
      match i.form with
      | .literal v gs =>
        match literalValue gs with
        | none => .fault .arithmeticOverflow pos
        | some x => .ok (pos + (6 + 5 * gs.length)) (.literal v (BitVec.ofNat 64 x))
      | .total k v l =>
        if l = 0#15 then .fault .malformedLength pos
        else if maxDepth ≤ depth then .fault .recursionLimitExceeded pos
        else parseRegion maxDepth bits fuel (depth + 1) k v pos (pos + 22 + l.toNat) (pos + 22) []
      | .counted k v n =>
        if n = 0#11 then .fault .malformedLength pos
        else if maxDepth ≤ depth then .fault .recursionLimitExceeded pos
        else parseCounted maxDepth bits fuel (depth + 1) k v n.toNat (pos + 18) []
termination_by structural fuel => fuel

/-- Total-length mode (R133's first quotation): sub-packets until the region up to `stop` is exactly consumed;
`MalformedLength` at the operator's `start` when one overshoots it. -/
def parseRegion (maxDepth : Nat) (bits : List Bool) :
    Nat → Nat → OpKind → Version → Nat → Nat → Nat → List Packet → Parsed
  | 0, _, _, _, _, _, _, _ => .outOfFuel
  | fuel + 1, depth, k, v, start, stop, pos, subs =>
    match parsePacket maxDepth bits fuel depth pos with
    | .ok pos' p =>
      if stop < pos' then .fault .malformedLength start
      else if pos' < stop then parseRegion maxDepth bits fuel depth k v start stop pos' (subs ++ [p])
      else .ok pos' (.operator v k.typeId (Packets.ofList (subs ++ [p])))
    | .fault e at_ => .fault e at_
    | .outOfFuel => .outOfFuel
termination_by structural fuel => fuel

/-- Count mode (R133's second quotation): exactly `left` more sub-packets, in order. -/
def parseCounted (maxDepth : Nat) (bits : List Bool) :
    Nat → Nat → OpKind → Version → Nat → Nat → List Packet → Parsed
  | 0, _, _, _, _, _, _ => .outOfFuel
  | fuel + 1, depth, k, v, left, pos, subs =>
    match parsePacket maxDepth bits fuel depth pos with
    | .ok pos' p =>
      if 1 < left then parseCounted maxDepth bits fuel depth k v (left - 1) pos' (subs ++ [p])
      else .ok pos' (.operator v k.typeId (Packets.ofList (subs ++ [p])))
    | .fault e at_ => .fault e at_
    | .outOfFuel => .outOfFuel
termination_by structural fuel => fuel

end

/-- The contract run once per message at `offset = 0` (R130), with a recursion bound that no message reaches. -/
def parseMessage (maxDepth : Nat) (bits : List Bool) : Parsed :=
  parsePacket maxDepth bits (2 * bits.length + 2) 0 0

end Sys2Proof.Machine
end

