-- ==== Sys2Proof/Safety.lean ====
section
/-! DEFINITION. What holds in every state of a run: the data model of R13 and R134 for packets, the ranges of R9, R25,
R26, R31, R33, R34, and what each phase says of the other fields (R22, R23, R27, R28, R224, R282). -/

namespace Sys2Proof.Machine

mutual

/-- A packet the parser can build (R134): no operator of type 4, no operator without sub-packets, every literal in
`[0, 2^63 - 1]`. -/
def Packet.legal : Packet → Bool
  | .literal _ v => !v.msb
  | .operator _ t subs => t != 4#3 && subs != .nil && subs.allLegal

/-- Every packet of the list is legal. -/
def Packets.allLegal : Packets → Bool
  | .nil => true
  | .cons p ps => p.legal && ps.allLegal

end

mutual

/-- The number of packets in a tree (R9, R34). -/
def Packet.nodes : Packet → Nat
  | .literal _ _ => 1
  | .operator _ _ subs => 1 + subs.nodesAll

/-- The number of packets in a list of trees. -/
def Packets.nodesAll : Packets → Nat
  | .nil => 0
  | .cons p ps => p.nodes + ps.nodesAll

end

mutual

/-- The depth of a tree, a literal being 1 (R34). -/
def Packet.height : Packet → Nat
  | .literal _ _ => 1
  | .operator _ _ subs => 1 + subs.heightAll

/-- The greatest depth in a list of trees. -/
def Packets.heightAll : Packets → Nat
  | .nil => 0
  | .cons p ps => Nat.max p.height ps.heightAll

end

/-- An open frame with the cursor at `cur` (R33): the operator's head lies before the cursor; a region is not empty and
ends within `L <= 32767` of its start; a count is not 0. The cursor may have passed the region of a frame that is not
the innermost (R166 c). -/
def Frame.legal (cur : Pos) (f : Frame) : Prop :=
  f.typeId ≠ 4#3 ∧ (∀ p ∈ f.subs, p.legal = true) ∧
    match f.extent with
    | .region stop =>
      f.start.toNat + 22 ≤ cur.toNat ∧ f.start.toNat + 22 < stop.toNat ∧ stop.toNat ≤ f.start.toNat + 22 + 32767
    | .count left => f.start.toNat + 18 ≤ cur.toNat ∧ left ≠ 0#11

/-- The packets of the frames: each open operator and the trees delivered to it. -/
def framesNodes : List Frame → Nat
  | [] => 0
  | f :: rest => 1 + (Packets.ofList f.subs).nodesAll + framesNodes rest

/-- With `MAX_DEPTH` = `limit`, the trees delivered to a frame with `n` frames outside it are at most `limit - n` deep. -/
def framesHeight (limit : Nat) : List Frame → Prop
  | [] => True
  | f :: rest => (∀ p ∈ f.subs, p.height + rest.length ≤ limit) ∧ framesHeight limit rest

/-- The packets of `ROOT`. -/
def rootNodes : Option Packet → Nat
  | none => 0
  | some p => p.nodes

/-- No result, no fault: the values START and reset give (R271, R37). -/
def State.clean (s : State) : Prop :=
  s.errcode = .none ∧ s.errpos = 0#32 ∧ s.vsumValid = false ∧ s.vsum = 0#32 ∧ s.valueValid = false ∧ s.value = 0#64

/-- What the phase says of the other fields (R22 to R24, R27, R28, R30, R31, R34, R224, R282). -/
def State.phaseFacts (s : State) : Prop :=
  match s.phase with
  | .idle | .unpack => s.clean ∧ s.bits = [] ∧ s.stack = [] ∧ s.root = none ∧ s.cur = 0#32
  | .parse => s.clean ∧ s.bits.length = 4 * s.inlen.toNat ∧ s.root = none
  | .foldV => s.clean ∧ s.bits.length = 4 * s.inlen.toNat ∧ s.stack = [] ∧ ∃ p, s.root = some p
  | .foldE =>
    s.errcode = .none ∧ s.errpos = 0#32 ∧ s.valueValid = false ∧ s.value = 0#64 ∧
      s.bits.length = 4 * s.inlen.toNat ∧ s.stack = [] ∧ s.vsumValid = true ∧
      ∃ p, s.root = some p ∧ s.vsum.toNat = p.vsumOf
  | .done =>
    s.errcode = .none ∧ s.errpos = 0#32 ∧ s.valueValid = true ∧ s.stack = [] ∧ s.vsumValid = true ∧
      ∃ p, s.root = some p ∧ s.vsum.toNat = p.vsumOf ∧ p.eval = .ok s.value.toInt
  | .err =>
    s.errcode ≠ .none ∧ s.valueValid = false ∧ s.value = 0#64 ∧
      if s.vsumValid then
        s.stack = [] ∧ s.errpos = 0#32 ∧
          ∃ p, s.root = some p ∧ s.vsum.toNat = p.vsumOf ∧ p.eval = .error s.errcode
      else s.vsum = 0#32 ∧ s.root = none ∧ s.errcode ≠ .arityMismatch ∧ s.errcode ≠ .unknownOperator

/-- The invariant of the block: every state that a step or a host move can reach from reset meets it. -/
structure State.Inv (s : State) : Prop where
  /-- R8. -/
  params : s.params.legal
  /-- The canonical form of the written cells of `INBUF`. -/
  inbufForm : Memory.wf s.inbuf = true
  /-- R62: no cell at or above `MAX_HEX` is written. -/
  inbufRange : ∀ c ∈ s.inbuf, c.1 < s.params.maxHex
  /-- R25. -/
  inlenRange : s.inlen.toNat ≤ s.params.maxHex
  /-- R9, R30: `NBITS <= 4 * MAX_HEX`, a multiple of 4. -/
  bitsRange : s.bits.length ≤ 4 * s.params.maxHex ∧ s.bits.length % 4 = 0
  /-- R26: `CUR <= NBITS`. -/
  curRange : s.cur.toNat ≤ s.bits.length
  /-- R31: `DEPTH <= MAX_DEPTH`. -/
  depthRange : s.depth ≤ s.params.maxDepth
  /-- R33. -/
  frames : ∀ f ∈ s.stack, f.legal s.cur
  /-- R133: the region of the innermost frame is not yet full. -/
  topOpen : ∀ f stop, s.stack.head? = some f → f.extent = .region stop → s.cur.toNat < stop.toNat
  /-- R34: the tree's depth is at most `MAX_DEPTH + 1`. -/
  heights : framesHeight s.params.maxDepth s.stack ∧ ∀ p, s.root = some p → p.height ≤ s.params.maxDepth + 1
  /-- R134. -/
  rootLegal : ∀ p, s.root = some p → p.legal = true
  /-- R9, R34: at least 11 bits a packet. -/
  size : 11 * (framesNodes s.stack + rootNodes s.root) ≤ s.cur.toNat
  /-- The phase's facts. -/
  phase : s.phaseFacts

/-- R23's relations between the status fields. -/
def State.flagsAgree (s : State) : Prop :=
  (s.valueValid = true ↔ s.phase = .done) ∧ (s.phase = .done → s.vsumValid = true) ∧
    (s.errcode ≠ .none ↔ s.phase = .err) ∧ (s.phase = .foldE → s.vsumValid = true)

end Sys2Proof.Machine
end

