-- ==== Sys2Proof/Certificates/Slice0/Obligations.lean ====
section
/-! DEFINITION. The statements for the provers. Each docstring names the rules of spec/ it formalises. A conclusion
`... = .next { s with ... }` says the new values and the frame at once: every field not named keeps its value. -/

open Sys2Proof Sys2Proof.Machine

/-! ### Reset and the host's moves -/

/-- R37: every element after reset. `INBUF` is arbitrary there; that each cell holds a free value of its own is the
model's choice (log 2). -/
def Obligations.ResetStateIsTheTable : Prop :=
  State.reset.phase = .idle ∧ State.reset.errcode = .none ∧ State.reset.vsumValid = false ∧
    State.reset.valueValid = false ∧ State.reset.vsum = 0#32 ∧ State.reset.value = 0#64 ∧ State.reset.cur = 0#32 ∧
    State.reset.errpos = 0#32 ∧ State.reset.inlen = 0#32 ∧ State.reset.nbits = 0#32 ∧ State.reset.bits = [] ∧
    State.reset.depth = 0 ∧ State.reset.stack = [] ∧ State.reset.root = none ∧
    ∀ i, State.reset.inbufByte i = Config.inbufPowerOn i

/-- R261: a reset in any phase sets every element to its value of R37 but `INBUF`, which is not changed and has
unspecified contents after power-on; after it the decoder has no enabled step. The model's: `params`, `turns` and
`hostData` stay (log 21), and an unwritten cell of `INBUF` holds a free value of its own (log 2). -/
def Obligations.ResetMoveFromAnyPhase : Prop :=
  (∀ (s : State) (ts : List Turn), s.turns = .host .reset :: ts →
    step s = .next { State.reset with inbuf := s.inbuf, params := s.params, turns := ts, hostData := s.hostData }) ∧
  (∀ i, State.reset.inbufByte i = Config.inbufPowerOn i) ∧ State.reset.phase.busy = false

/-- R271: START in `IDLE`, `DONE` or `ERR` begins a new message from a clean state and leaves `INBUF` and `INLEN`; while
BUSY it is dropped. -/
def Obligations.StartBeginsACleanMessage : Prop :=
  ∀ (s : State) (d : BitVec 32) (ts : List Turn), s.turns = .host (.writeReg 0 d) :: ts → d.getLsbD 0 = true →
    (s.phase = .idle ∨ s.phase = .done ∨ s.phase = .err →
      step s = .next
        { s with
          cur := 0#32, errpos := 0#32, errcode := .none, vsum := 0#32, value := 0#64, vsumValid := false,
          valueValid := false, bits := [], stack := [], root := none, phase := .unpack, turns := ts }) ∧
    (s.phase.busy = true → step s = .next { s with turns := ts })

/-- R273, R24, R29: which writes are dropped, and that a read changes nothing. That a read's data stands in `hostData`
is the model's choice (log 6). -/
def Obligations.DroppedWritesAndPureReads : Prop :=
  ∀ (s : State) (ts : List Turn),
    (∀ i b, s.turns = .host (.writeInbuf i b) :: ts → s.phase.busy = true → step s = .next { s with turns := ts }) ∧
    (∀ n d, s.turns = .host (.writeReg n d) :: ts → s.phase.busy = true → step s = .next { s with turns := ts }) ∧
    (∀ n d, s.turns = .host (.writeReg n d) :: ts → n ≠ 0 → n ≠ 2 → step s = .next { s with turns := ts }) ∧
    (∀ d, s.turns = .host (.writeReg 0 d) :: ts → d.getLsbD 0 = false → step s = .next { s with turns := ts }) ∧
    (∀ n, s.turns = .host (.readReg n) :: ts →
      step s = .next { s with turns := ts, hostData := s.readReg n })

/-- R62: the host's access to `INBUF`, and that the decoder never writes it. That a read's data stands in `hostData` is
the model's choice (log 6). -/
def Obligations.InbufHostAccess : Prop :=
  ∀ (s : State) (ts : List Turn) (i : Nat),
    (∀ b, s.turns = .host (.writeInbuf i b) :: ts →
      (s.phase.busy = false → i < s.params.maxHex →
        ∃ t, step s = .next t ∧ t.inbufByte i = b ∧ (∀ j, j ≠ i → t.inbufByte j = s.inbufByte j) ∧
          t = { s with inbuf := t.inbuf, turns := ts }) ∧
      (s.phase.busy = true ∨ s.params.maxHex ≤ i → step s = .next { s with turns := ts })) ∧
    (s.turns = .host (.readInbuf i) :: ts →
      (i < s.params.maxHex →
        step s = .next { s with turns := ts, hostData := (s.inbufByte i).setWidth 64 }) ∧
      (s.params.maxHex ≤ i → step s = .next { s with turns := ts, hostData := 0#64 })) ∧
    (∀ t, s.turns = [] ∨ s.turns = .decoder :: ts → step s = .next t → t.inbuf = s.inbuf)

/-- R25: a write of a legal value while not BUSY stores `INLEN`; any other is dropped; the decoder never writes it. -/
def Obligations.InlenWriteAnyReadLegal : Prop :=
  ∀ (s : State) (ts : List Turn),
    (∀ v : BitVec 32, s.turns = .host (.writeReg 2 v) :: ts →
      (s.phase.busy = false → v.toNat ≤ s.params.maxHex → step s = .next { s with inlen := v, turns := ts }) ∧
      (s.phase.busy = true ∨ s.params.maxHex < v.toNat → step s = .next { s with turns := ts })) ∧
    (∀ t, s.turns = [] ∨ s.turns = .decoder :: ts → step s = .next t → t.inlen = s.inlen)

/-- R22, R23, R29, R221: what each register number reads, the fields of `STATUS`, and the codes in them. The zero
extension of a 32-bit register is the model's choice (log 6). -/
def Obligations.RegisterMapAndStatusLayout : Prop :=
  (∀ s : State,
    s.readReg 0 = 0#64 ∧ s.readReg 1 = s.status.setWidth 64 ∧ s.readReg 2 = s.inlen.setWidth 64 ∧
      s.readReg 3 = s.vsum.setWidth 64 ∧ s.readReg 4 = s.value ∧ s.readReg 5 = s.cur.setWidth 64 ∧
      s.readReg 6 = s.errpos.setWidth 64 ∧ (∀ n, 7 ≤ n → s.readReg n = 0#64) ∧
      s.status.extractLsb' 0 3 = s.phase.code ∧ s.status.getLsbD 3 = s.vsumValid ∧
      s.status.getLsbD 4 = s.valueValid ∧ s.status.extractLsb' 5 3 = 0#3 ∧
      s.status.extractLsb' 8 4 = s.errcode.code ∧ s.status.extractLsb' 12 20 = 0#20) ∧
  [Phase.idle, .unpack, .parse, .foldV, .foldE, .done, .err].map Phase.code = [0#3, 1#3, 2#3, 3#3, 4#3, 5#3, 6#3] ∧
  [ErrCode.none, .invalidHexDigit, .unexpectedEndOfBits, .malformedLength, .arityMismatch, .unknownOperator,
    .recursionLimitExceeded, .arithmeticOverflow].map ErrCode.code = [0#4, 1#4, 2#4, 3#4, 4#4, 5#4, 6#4, 7#4]

/-- R262, steps 3 to 5: the host's moves for a message put it in `INBUF` and `INLEN` and start the block. -/
def Obligations.HostLoadsAndStartsAMessage : Prop :=
  ∀ (s : State) (cs : List Byte), s.phase.busy = false → cs.length ≤ s.params.maxHex → s.params.legal →
    s.turns = (messageMoves cs).map .host →
    ∃ t, Host.Core.run core (cs.length + 2) s = .next t ∧ t.turns = [] ∧ t.phase = .unpack ∧
      t.inlen.toNat = cs.length ∧ t.params = s.params ∧ ∀ i c, cs[i]? = some c → t.inbufByte i = c

/-! ### Turns and waiting -/

/-- R270: the decoder's step does not depend on the turns still to come. The list `turns`, and that the decoder moves
when it is empty, are the model's choice (log 4). -/
def Obligations.DecoderTurnIsTheDecoderStep : Prop :=
  ∀ (s : State) (ts : List Turn), s.turns = .decoder :: ts →
    step s =
      match step { s with turns := [] } with
      | .next t => .next { t with turns := ts }
      | .fault r => .fault r
      | .refused r => .refused r

/-- R22, R226: in `IDLE`, `DONE` and `ERR` the decoder waits for the host. That waiting is a step that changes nothing
is the model's choice (log 5). -/
def Obligations.IdleDecoderWaits : Prop :=
  ∀ s : State, s.phase.busy = false → s.turns = [] → step s = .next s

/-! ### The Bit Unpacker -/

/-- R122: `HexVal`, by the numeric character codes. -/
def Obligations.HexDigitValues : Prop :=
  ∀ c : Byte,
    (0x30 ≤ c.toNat → c.toNat ≤ 0x39 → ∃ d, hexVal .both c = some d ∧ d.toNat = c.toNat - 0x30) ∧
    (0x41 ≤ c.toNat → c.toNat ≤ 0x46 → ∃ d, hexVal .both c = some d ∧ d.toNat = c.toNat - 0x41 + 10) ∧
    (0x61 ≤ c.toNat → c.toNat ≤ 0x66 → ∃ d, hexVal .both c = some d ∧ d.toNat = c.toNat - 0x61 + 10) ∧
    (c.toNat < 0x30 ∨ (0x39 < c.toNat ∧ c.toNat < 0x41) ∨ (0x46 < c.toNat ∧ c.toNat < 0x61) ∨ 0x66 < c.toNat →
      hexVal .both c = none)

/-- D1, U1: an upper-case-only block differs on `a` to `f` alone (log 1, the model's choice to cover it). -/
def Obligations.UpperOnlyDiffersOnLowerCase : Prop :=
  ∀ c : Byte,
    (0x61 ≤ c.toNat ∧ c.toNat ≤ 0x66 → hexVal .upperOnly c = none) ∧
    (c.toNat < 0x61 ∨ 0x66 < c.toNat → hexVal .upperOnly c = hexVal .both c)

/-- R63, R64: the unpack step of a valid string: `NBITS = 4 * INLEN`, character `i` gives bits `4i` to `4i + 3`, most
significant first; nothing else changes but `PHASE`. -/
def Obligations.UnpackGivesFourBitsPerCharacter : Prop :=
  ∀ s : State, s.phase = .unpack → s.turns = [] →
    (∀ i, i < s.inlen.toNat → hexVal s.params.hexCase (s.inbufByte i) ≠ none) →
    ∃ bs, step s = .next { s with bits := bs, phase := .parse } ∧ bs.length = 4 * s.inlen.toNat ∧
      ∀ i d, i < s.inlen.toNat → hexVal s.params.hexCase (s.inbufByte i) = some d →
        ∀ j, j < 4 → bs[4 * i + j]? = some (d.getLsbD (3 - j))

/-- R123: the fault is the least invalid index; the cells at `INLEN` and above are never read, whatever they hold. -/
def Obligations.UnpackFaultsAtTheLeastInvalidIndex : Prop :=
  (∀ (s : State) (i : Nat), s.phase = .unpack → s.turns = [] → i < s.inlen.toNat →
    hexVal s.params.hexCase (s.inbufByte i) = none →
    (∀ j, j < i → hexVal s.params.hexCase (s.inbufByte j) ≠ none) →
    step s = .next { s with phase := .err, errcode := .invalidHexDigit, errpos := BitVec.ofNat 32 i }) ∧
  ∀ (s t : State) (m : Memory), s.phase = .unpack → s.turns = [] →
    (∀ i, i < s.inlen.toNat → { s with inbuf := m }.inbufByte i = s.inbufByte i) →
    step s = .next t → step { s with inbuf := m } = .next { t with inbuf := m }

/-! ### Decoding and encoding -/

/-- V1, V2, V3, V7, T40 of 95_test_vectors.md: head bits, written out, and the instruction they stand for. -/
def Obligations.ListedHeadsDecode : Prop :=
  decode ([true, true, false, true, false, false] ++ [true, false, true, true, true] ++ [true, true, true, true, false] ++
      [false, false, true, false, true] ++ [false, false, false]) =
    .instr (.lit 6#3 [7#4, 14#4, 5#4]) [false, false, false] ∧
  decode ([false, false, true, true, true, false, false] ++
      [false, false, false, false, false, false, false, false, false, false, true, true, false, true, true] ++ [true]) =
    .instr (.ltL 1#3 27#15) [true] ∧
  decode ([true, false, false, false, true, false, true] ++
      [false, false, false, false, false, false, false, false, false, false, true]) = .instr (.minN 4#3 1#11) [] ∧
  decode ([true, true, false, false, false, false, true] ++
      [false, false, false, false, false, false, false, false, false, true, false]) = .instr (.sumN 6#3 2#11) [] ∧
  decode ([true, true, true, false, true, true, true] ++
      [false, false, false, false, false, false, false, false, false, true, true]) = .instr (.maxN 7#3 3#11) []

/-- R90 to R95, R99: decoding the encoding of any instruction that has one gives it back, and the bits after it. -/
def Obligations.DecodeUndoesEncode : Prop :=
  ∀ (i : Instr) (rest : List Bool), i.encodable = true → decode (encode i ++ rest) = .instr i rest

/-- R90 to R96: what was decoded is exactly the encoding of the instruction, of the head's length: no bit is skipped and
none is read twice. -/
def Obligations.DecodedBitsAreTheEncoding : Prop :=
  ∀ (bs rest : List Bool) (i : Instr), decode bs = .instr i rest →
    i.encodable = true ∧ bs = encode i ++ rest ∧ (encode i).length = i.headBits

/-- R100: every head word is one row's, and the decoder's instruction is that row's. -/
def Obligations.TableDecodesEveryHead : Prop :=
  (∀ h7 : BitVec 7, (opcodeTable.filter (fun r => r.hits h7)).length = 1) ∧
  ∀ (bs rest : List Bool) (i : Instr), decode bs = .instr i rest →
    (opcodeTable.filter (fun r => r.hits (BitVec.ofNat 7 (bitsValue (bs.take 7))))).map TableRow.mnemonic = [i.mnemonic]

/-! ### The PARSE step -/

/-- R131, R136: when the bits at `CUR` decode to an instruction, the step is `exec` of it; a decoder turn that was
pending is taken off and nothing else is added around `exec`. -/
def Obligations.StepRunsTheDecodedInstruction : Prop :=
  ∀ (s : State) (i : Instr) (rest : List Bool), s.phase = .parse → decode (s.bits.drop s.cur.toNat) = .instr i rest →
    (s.turns = [] → step s = exec i s) ∧
    ∀ ts, s.turns = .decoder :: ts → step s = exec i { s with turns := ts }

/-- R131, R160 to R162: a head with fewer bits left than it needs faults `UnexpectedEndOfBits` at its first bit, and
nothing else changes. -/
def Obligations.ShortHeadFaults : Prop :=
  ∀ s : State, s.phase = .parse → s.turns = [] →
    ((s.bits.drop s.cur.toNat).length < 6 →
      step s = .next { s with phase := .err, errcode := .unexpectedEndOfBits, errpos := s.cur }) ∧
    ∀ (v : Version) (k : OpKind) (tail : List Bool),
      s.bits.drop s.cur.toNat = bitsOf 3 v.toNat ++ bitsOf 3 k.typeId.toNat ++ tail →
      tail = [] ∨ (tail.head? = some false ∧ tail.length < 16) ∨ (tail.head? = some true ∧ tail.length < 12) →
      step s = .next { s with phase := .err, errcode := .unexpectedEndOfBits, errpos := s.cur }

/-- R150 corners (c) and (e): a literal cut after the groups `gs`, all with flag 1: `ArithmeticOverflow` if they already
pass `2^63 - 1`, else `UnexpectedEndOfBits`, at the literal's first bit. -/
def Obligations.CutLiteralFaults : Prop :=
  ∀ (s : State) (v : Version) (gs : List Nibble) (tail : List Bool), s.phase = .parse → s.turns = [] →
    s.bits.drop s.cur.toNat =
      bitsOf 3 v.toNat ++ bitsOf 3 4 ++ gs.flatMap (fun g => true :: bitsOf 4 g.toNat) ++ tail →
    tail.length < 5 →
    (groupsNumber gs < 2 ^ 63 →
      step s = .next { s with phase := .err, errcode := .unexpectedEndOfBits, errpos := s.cur }) ∧
    (2 ^ 63 ≤ groupsNumber gs →
      step s = .next { s with phase := .err, errcode := .arithmeticOverflow, errpos := s.cur })

/-- R26, R138: a PARSE step faults and leaves `CUR`, or moves it by the length of the head it decoded, at least 11 bits,
and not past `NBITS`. -/
def Obligations.ParseStepMovesTheCursorByTheHead : Prop :=
  ∀ s t : State, s.Inv → s.phase = .parse → s.turns = [] → step s = .next t →
    (t.phase = .err ∧ t.cur = s.cur) ∨
    (t.phase ≠ .err ∧ ∃ i rest, decode (s.bits.drop s.cur.toNat) = .instr i rest ∧
      t.cur.toNat = s.cur.toNat + i.headBits ∧ 11 ≤ i.headBits ∧ t.cur.toNat ≤ s.bits.length)

/-- R135, U13: bits after what has been decoded change nothing: a step that does not fault does the same with more bits
at the end. -/
def Obligations.TrailingBitsDoNotMatter : Prop :=
  ∀ (s t : State) (extra : List Bool), s.phase = .parse ∨ s.phase = .foldV ∨ s.phase = .foldE → s.turns = [] →
    step s = .next t → t.phase ≠ .err →
    step { s with bits := s.bits ++ extra } = .next { t with bits := t.bits ++ extra }

/-- R24, R66: `BITS` is written by the unpack step, START (bit 0 of `CTRL` set) and reset, and by nothing else. -/
def Obligations.BitsAreReadOnlyAfterUnpack : Prop :=
  ∀ s t : State, step s = .next t → t.bits ≠ s.bits →
    (s.phase = .unpack ∧ (s.turns = [] ∨ ∃ ts, s.turns = .decoder :: ts)) ∨
    (s.phase.busy = false ∧ ∃ d ts, s.turns = .host (.writeReg 0 d) :: ts ∧ d.getLsbD 0 = true) ∨
    ∃ ts, s.turns = .host .reset :: ts

/-! ### The instructions: operator heads -/

/-- R161, R200, R203, R206, R209: `SUM.L`, `PROD.L`, `MIN.L`, `MAX.L` complete: the frame pushed and the cursor past the
22-bit head. -/
def Obligations.AggregateTotalHeadsPushAFrame : Prop :=
  ∀ (v : Version) (l : Length) (s : State), l ≠ 0#15 → s.depth < s.params.maxDepth →
    let pushed : TypeId → State := fun t =>
      { s with
        cur := s.cur + 22#32
        stack :=
          { ver := v, typeId := t, extent := .region (s.cur + 22#32 + l.setWidth 32), start := s.cur, subs := [] } ::
            s.stack }
    exec (.sumL v l) s = .next (pushed 0#3) ∧ exec (.prodL v l) s = .next (pushed 1#3) ∧
      exec (.minL v l) s = .next (pushed 2#3) ∧ exec (.maxL v l) s = .next (pushed 3#3)

/-- R162, R201, R204, R207, R210: `SUM.N`, `PROD.N`, `MIN.N`, `MAX.N` complete: the frame pushed and the cursor past the
18-bit head. -/
def Obligations.AggregateCountHeadsPushAFrame : Prop :=
  ∀ (v : Version) (n : Count) (s : State), n ≠ 0#11 → s.depth < s.params.maxDepth →
    let pushed : TypeId → State := fun t =>
      { s with
        cur := s.cur + 18#32
        stack := { ver := v, typeId := t, extent := .count n, start := s.cur, subs := [] } :: s.stack }
    exec (.sumN v n) s = .next (pushed 0#3) ∧ exec (.prodN v n) s = .next (pushed 1#3) ∧
      exec (.minN v n) s = .next (pushed 2#3) ∧ exec (.maxN v n) s = .next (pushed 3#3)

/-- R161, R212, R214, R216: `GT.L`, `LT.L`, `EQ.L` complete, whatever the number of sub-packets their region will hold. -/
def Obligations.ComparisonTotalHeadsPushAFrame : Prop :=
  ∀ (v : Version) (l : Length) (s : State), l ≠ 0#15 → s.depth < s.params.maxDepth →
    let pushed : TypeId → State := fun t =>
      { s with
        cur := s.cur + 22#32
        stack :=
          { ver := v, typeId := t, extent := .region (s.cur + 22#32 + l.setWidth 32), start := s.cur, subs := [] } ::
            s.stack }
    exec (.gtL v l) s = .next (pushed 5#3) ∧ exec (.ltL v l) s = .next (pushed 6#3) ∧
      exec (.eqL v l) s = .next (pushed 7#3)

/-- R162, R213, R215, R217: `GT.N`, `LT.N`, `EQ.N` complete; `N` is not tested against 2. -/
def Obligations.ComparisonCountHeadsPushAFrame : Prop :=
  ∀ (v : Version) (n : Count) (s : State), n ≠ 0#11 → s.depth < s.params.maxDepth →
    let pushed : TypeId → State := fun t =>
      { s with
        cur := s.cur + 18#32
        stack := { ver := v, typeId := t, extent := .count n, start := s.cur, subs := [] } :: s.stack }
    exec (.gtN v n) s = .next (pushed 5#3) ∧ exec (.ltN v n) s = .next (pushed 6#3) ∧
      exec (.eqN v n) s = .next (pushed 7#3)

/-- R103, R165: `L = 0` and `N = 0` fault `MalformedLength` at the operator's first bit, whatever the depth. -/
def Obligations.EmptyOperatorsFaultAtTheHead : Prop :=
  ∀ (i : Instr) (k : OpKind) (v : Version) (s : State), i.form = .total k v 0#15 ∨ i.form = .counted k v 0#11 →
    exec i s = .next { s with phase := .err, errcode := .malformedLength, errpos := s.cur }

/-- R164: an operator head that would take `DEPTH` past `MAX_DEPTH` faults `RecursionLimitExceeded` at its first bit; one
that would not is pushed; a literal never adds to the depth. -/
def Obligations.DepthGuardCountsOperators : Prop :=
  (∀ (i : Instr) (k : OpKind) (v : Version) (s : State),
    ((∃ l, l ≠ 0#15 ∧ i.form = .total k v l) ∨ ∃ n, n ≠ 0#11 ∧ i.form = .counted k v n) →
    (s.params.maxDepth ≤ s.depth →
      exec i s = .next { s with phase := .err, errcode := .recursionLimitExceeded, errpos := s.cur }) ∧
    (s.depth < s.params.maxDepth → ∃ t, exec i s = .next t ∧ t.depth = s.depth + 1 ∧ t.errcode = s.errcode)) ∧
  ∀ (v : Version) (gs : List Nibble) (s : State), ∃ t, exec (.lit v gs) s = .next t ∧ t.depth ≤ s.depth

/-! ### The instructions: LIT and the closing of frames -/

/-- R133, R134, R150: `LIT` whose end closes every open frame (none, or each region ends there, each count is at its
last) gives the root packet, innermost operator first, and ends the parse. -/
def Obligations.LiteralThatEndsTheParse : Prop :=
  ∀ (v : Version) (gs : List Nibble) (s : State), groupsNumber gs < 2 ^ 63 →
    (∀ f ∈ s.stack,
      f.extent = .region (s.cur + BitVec.ofNat 32 (6 + 5 * gs.length)) ∨ f.extent = .count 1#11) →
    exec (.lit v gs) s =
      .next
        { s with
          cur := s.cur + BitVec.ofNat 32 (6 + 5 * gs.length)
          stack := []
          root := some (s.stack.foldl (fun p f => .operator f.ver f.typeId (Packets.ofList (f.subs ++ [p])))
            (.literal v (BitVec.ofNat 64 (groupsNumber gs))))
          phase := .foldV }

/-- R133, R150, R168: `LIT` whose end closes the frames `closed` and leaves the next one, `f`, open: the packet closed
last is appended to `f`, a count goes down by one, and `PHASE` stays. -/
def Obligations.LiteralThatLeavesAFrameOpen : Prop :=
  ∀ (v : Version) (gs : List Nibble) (s : State) (closed rest : List Frame) (f : Frame), groupsNumber gs < 2 ^ 63 →
    s.stack = closed ++ f :: rest →
    (∀ g ∈ closed,
      g.extent = .region (s.cur + BitVec.ofNat 32 (6 + 5 * gs.length)) ∨ g.extent = .count 1#11) →
    let p := closed.foldl (fun p f => Packet.operator f.ver f.typeId (Packets.ofList (f.subs ++ [p])))
      (.literal v (BitVec.ofNat 64 (groupsNumber gs)))
    (∀ stop, f.extent = .region stop → s.cur + BitVec.ofNat 32 (6 + 5 * gs.length) < stop →
      exec (.lit v gs) s =
        .next
          { s with
            cur := s.cur + BitVec.ofNat 32 (6 + 5 * gs.length)
            stack := { f with subs := f.subs ++ [p] } :: rest }) ∧
    (∀ n, f.extent = .count n → 1 < n.toNat →
      exec (.lit v gs) s =
        .next
          { s with
            cur := s.cur + BitVec.ofNat 32 (6 + 5 * gs.length)
            stack := { f with extent := .count (n - 1#11), subs := f.subs ++ [p] } :: rest })

/-- R133, R137, R166, R223: `LIT` whose end closes the frames `closed` and lies past the region of the next one, `f`:
`MalformedLength` at the start of `f`; the appends, the pops and the move of `CUR` are not kept. -/
def Obligations.LiteralThatOvershootsARegion : Prop :=
  ∀ (v : Version) (gs : List Nibble) (s : State) (closed rest : List Frame) (f : Frame) (stop : Pos),
    groupsNumber gs < 2 ^ 63 → s.stack = closed ++ f :: rest →
    (∀ g ∈ closed,
      g.extent = .region (s.cur + BitVec.ofNat 32 (6 + 5 * gs.length)) ∨ g.extent = .count 1#11) →
    f.extent = .region stop → stop < s.cur + BitVec.ofNat 32 (6 + 5 * gs.length) →
    exec (.lit v gs) s = .next { s with phase := .err, errcode := .malformedLength, errpos := f.start }

/-- R151, R223: a literal past `2^63 - 1` faults `ArithmeticOverflow` at its first bit, never a wrapped value. -/
def Obligations.LiteralOverflowFaults : Prop :=
  ∀ (v : Version) (gs : List Nibble) (s : State), 2 ^ 63 ≤ groupsNumber gs →
    exec (.lit v gs) s = .next { s with phase := .err, errcode := .arithmeticOverflow, errpos := s.cur }

/-- R152: for every value of `[0, 2^63 - 1]` and every encoding of it, leading zero groups too, the step produces
`Literal(v)` and advances the cursor by `6 + 5k`; the values `2^63 .. 2^64 - 1` fault; every value has an encoding. -/
def Obligations.LiteralRoundTrip : Prop :=
  (∀ (s : State) (ver : Version) (gs : List Nibble) (rest : List Bool), s.phase = .parse → s.turns = [] →
    s.stack = [] → gs ≠ [] → s.bits.drop s.cur.toNat = encode (.lit ver gs) ++ rest →
    (groupsNumber gs ≤ 2 ^ 63 - 1 →
      ∃ x : Value, x.toInt = (groupsNumber gs : Int) ∧
        step s = .next
          { s with
            cur := s.cur + BitVec.ofNat 32 (6 + 5 * gs.length), root := some (.literal ver x), phase := .foldV }) ∧
    (2 ^ 63 ≤ groupsNumber gs →
      step s = .next { s with phase := .err, errcode := .arithmeticOverflow, errpos := s.cur })) ∧
  ∀ (x : BitVec 64) (zeros : Nat), ∃ gs : List Nibble, gs ≠ [] ∧ groupsNumber gs = x.toNat ∧
    groupsNumber (List.replicate zeros 0#4 ++ gs) = x.toNat

/-! ### What every instruction leaves alone -/

/-- R133, R137, R140, R222: an instruction's frame. No memory cell, no `BITS`, no result, no flag changes. Either the
instruction faults and only `PHASE`, `ERRCODE`, `ERRPOS` change, or `ERRCODE` and `ERRPOS` keep their values and `CUR`
moves by the head's length; then an operator leaves `PHASE` and `ROOT` and pushes one frame. -/
def Obligations.InstructionFrame : Prop :=
  ∀ (i : Instr) (s t : State), exec i s = .next t →
    (∀ a, t.inbufByte a = s.inbufByte a) ∧ t.inbuf = s.inbuf ∧ t.inlen = s.inlen ∧ t.bits = s.bits ∧
      t.vsum = s.vsum ∧ t.vsumValid = s.vsumValid ∧ t.value = s.value ∧ t.valueValid = s.valueValid ∧
      t.params = s.params ∧ t.turns = s.turns ∧ t.hostData = s.hostData ∧
      (t = { s with phase := .err, errcode := t.errcode, errpos := t.errpos } ∨
        (t.errcode = s.errcode ∧ t.errpos = s.errpos ∧ t.cur = s.cur + BitVec.ofNat 32 i.headBits ∧
          ((∀ v gs, i ≠ .lit v gs) → t.phase = s.phase ∧ t.root = s.root ∧ ∃ f, t.stack = f :: s.stack)))

/-- R222: a decoder step that faults keeps every element but the three fault fields; in `ERR` it does nothing. That
waiting there is a step that answers the same state is the model's (log 5). -/
def Obligations.FaultsArePrecise : Prop :=
  (∀ s t : State, s.turns = [] → s.phase ≠ .err → step s = .next t → t.phase = .err →
    t = { s with phase := .err, errcode := t.errcode, errpos := t.errpos } ∧ t.errcode ≠ .none) ∧
  ∀ s : State, s.turns = [] → s.phase = .err → step s = .next s

/-! ### The version sum -/

/-- R180: `VSumOf`, and what it does not depend on. -/
def Obligations.VersionSumOfATree : Prop :=
  (∀ (v : Version) (x : Value), (Packet.literal v x).vsumOf = v.toNat) ∧
  (∀ (v : Version) (t : TypeId) (ps : List Packet),
    (Packet.operator v t (Packets.ofList ps)).vsumOf = v.toNat + (ps.map Packet.vsumOf).sum) ∧
  (∀ (v : Version) (t t' : TypeId) (ps : Packets), (Packet.operator v t ps).vsumOf = (Packet.operator v t' ps).vsumOf) ∧
  ∀ (v : Version) (x x' : Value), (Packet.literal v x).vsumOf = (Packet.literal v x').vsumOf

/-- R181, R9: the FOLD_V step, and that in the states of a run the sum fits `VSUM`. -/
def Obligations.FoldVStepDeliversTheVersionSum : Prop :=
  ∀ (s : State) (p : Packet), s.phase = .foldV → s.turns = [] → s.root = some p →
    step s = .next { s with vsum := BitVec.ofNat 32 p.vsumOf, vsumValid := true, phase := .foldE } ∧
    (s.Inv → (BitVec.ofNat 32 p.vsumOf).toNat = p.vsumOf)

/-! ### The Evaluator -/

/-- R188, R223: the FOLD_E step. That a fault of `Eval` writes `ERRPOS` 0, in states no run reaches too, is the model's
reading of "stays 0" (log 14). -/
def Obligations.FoldEStepDeliversTheValue : Prop :=
  ∀ (s : State) (p : Packet), s.phase = .foldE → s.turns = [] → s.root = some p →
    (∀ v, p.eval = .ok v →
      step s = .next { s with value := BitVec.ofInt 64 v, valueValid := true, phase := .done }) ∧
    (∀ e, p.eval = .error e → step s = .next { s with phase := .err, errcode := e, errpos := 0#32 })

/-- R187, R200, R201, R203, R204, R206, R207, R209, R210: a literal evaluates to its value; `SUM` and `PROD` to the
exact result where it is in range; `MIN` and `MAX` to the least and greatest operand. -/
def Obligations.EvalOfLiteralsAndAggregates : Prop :=
  (∀ (v : Version) (x : Value), (Packet.literal v x).eval = .ok x.toInt) ∧
  ∀ (v : Version) (ps : List Packet) (xs : List Int), xs ≠ [] → ps.map Packet.eval = xs.map Except.ok →
    (Packet.operator v 0#3 (Packets.ofList ps)).eval =
      (if -2 ^ 63 ≤ xs.sum ∧ xs.sum ≤ 2 ^ 63 - 1 then .ok xs.sum else .error .arithmeticOverflow) ∧
    (Packet.operator v 1#3 (Packets.ofList ps)).eval =
      (if -2 ^ 63 ≤ xs.prod ∧ xs.prod ≤ 2 ^ 63 - 1 then .ok xs.prod else .error .arithmeticOverflow) ∧
    (∃ m ∈ xs, (∀ x ∈ xs, m ≤ x) ∧ (Packet.operator v 2#3 (Packets.ofList ps)).eval = .ok m) ∧
    (∃ m ∈ xs, (∀ x ∈ xs, x ≤ m) ∧ (Packet.operator v 3#3 (Packets.ofList ps)).eval = .ok m)

/-- R187, R212 to R217: `GT`, `LT`, `EQ` of two sub-packets, the first in the stream first. -/
def Obligations.EvalOfComparisons : Prop :=
  ∀ (v : Version) (p q : Packet) (x y : Int), p.eval = .ok x → q.eval = .ok y →
    (Packet.operator v 5#3 (Packets.ofList [p, q])).eval = .ok (if x > y then 1 else 0) ∧
    (Packet.operator v 6#3 (Packets.ofList [p, q])).eval = .ok (if x < y then 1 else 0) ∧
    (Packet.operator v 7#3 (Packets.ofList [p, q])).eval = .ok (if x = y then 1 else 0)

/-- R187, R190: a comparison without exactly two sub-packets and an aggregate without any raise `ArityMismatch`, before
any sub-packet is evaluated. -/
def Obligations.EvalTestsArityFirst : Prop :=
  ∀ (v : Version) (t : TypeId) (ps : List Packet),
    (t ∈ [5#3, 6#3, 7#3] → ps.length ≠ 2 →
      (Packet.operator v t (Packets.ofList ps)).eval = .error .arityMismatch) ∧
    (t ∈ [0#3, 1#3, 2#3, 3#3] → ps = [] → (Packet.operator v t (Packets.ofList ps)).eval = .error .arityMismatch)

/-- R187: with the type and the arity in order, the fault of the first sub-packet that faults, in encoded order, is the
operator's. -/
def Obligations.EvalPropagatesTheFirstFault : Prop :=
  ∀ (v : Version) (t : TypeId) (qs rs : List Packet) (p : Packet) (xs : List Int) (e : ErrCode),
    t ∈ [0#3, 1#3, 2#3, 3#3] ∨ (t ∈ [5#3, 6#3, 7#3] ∧ (qs ++ p :: rs).length = 2) →
    qs.map Packet.eval = xs.map Except.ok → p.eval = .error e →
    (Packet.operator v t (Packets.ofList (qs ++ p :: rs))).eval = .error e

/-- R189: `UnknownOperator` is raised at a node of any other type, and no step reaches it from a state of a run. -/
def Obligations.UnknownOperatorIsUnreachable : Prop :=
  (∀ (v : Version) (t : TypeId) (subs : Packets), t ∉ [0#3, 1#3, 2#3, 3#3, 5#3, 6#3, 7#3] →
    (Packet.operator v t subs).eval = .error .unknownOperator) ∧
  ∀ s t : State, s.Inv → step s = .next t → t.errcode ≠ .unknownOperator

/-- R186, R187, R191: every value is in the signed 64-bit range. -/
def Obligations.EvalIsInRange : Prop :=
  ∀ (p : Packet) (v : Int), p.eval = .ok v → -2 ^ 63 ≤ v ∧ v ≤ 2 ^ 63 - 1

/-- R192: trees the parser builds have non-negative values, and a valid `VALUE` has its sign bit 0. -/
def Obligations.ParsedTreesAreNonNegative : Prop :=
  (∀ (p : Packet) (v : Int), p.legal = true → p.eval = .ok v → 0 ≤ v ∧ v ≤ 2 ^ 63 - 1) ∧
  ∀ s : State, s.Inv → s.valueValid = true → s.value.msb = false

/-- R185: "Evaluation order for sum/product/min/max is irrelevant": with the operand values given, neither the result
nor the node's own range fault depends on their order. Of sub-packets that fault, the first decides (R187). -/
def Obligations.AggregateOrderIsIrrelevant : Prop :=
  ∀ (k : OpKind) (xs ys : List Int), k ∈ [OpKind.sum, .prod, .min, .max] → xs.Perm ys → opResult k xs = opResult k ys

/-! ### The whole machine -/

/-- R37 meets the invariant. -/
def Obligations.ResetMeetsTheInvariant : Prop := State.reset.Inv

/-- R9, R22, R23, R25 to R28, R30, R31, R33, R34, R134: every step, of the decoder or of the host, keeps the invariant. -/
def Obligations.EveryStepKeepsTheInvariant : Prop :=
  ∀ s t : State, s.Inv → step s = .next t → t.Inv

/-- R280: the block cannot hang: in the states of a run every step answers a next state. The model's: in `IDLE`, `DONE`
and `ERR` waiting is a step (log 5), and a dropped write is a step, not a refusal (log 19). -/
def Obligations.NoStepStopsInARun : Prop :=
  ∀ s : State, s.Inv → ∃ t, step s = .next t

/-- R23: the relations between the status fields are kept by every step, from every state that has them. -/
def Obligations.StatusFieldsAgree : Prop :=
  ∀ s t : State, s.flagsAgree → step s = .next t → t.flagsAgree

/-- R280: from START, with no host move in between, at most `floor(NBITS/11) + 3` steps to `DONE` or `ERR`. -/
def Obligations.EveryMessageEnds : Prop :=
  ∀ s : State, s.Inv → s.phase = .unpack → s.turns = [] →
    ∃ k t, k ≤ 4 * s.inlen.toNat / 11 + 3 ∧ Host.Core.run core k s = .next t ∧ (t.phase = .done ∨ t.phase = .err)

/-- R139 (which the spec derives): the stack machine agrees with the source's recursive contract; a fault is one of a
PARSE step, before any fold. -/
def Obligations.StackMachineAgreesWithRecursiveParse : Prop :=
  ∀ s : State, s.Inv → s.phase = .parse → s.turns = [] → s.cur = 0#32 → s.stack = [] →
    ∃ k t, Host.Core.run core k s = .next t ∧
      match parseMessage s.params.maxDepth s.bits with
      | .ok n p => t = { s with cur := BitVec.ofNat 32 n, root := some p, phase := .foldV } ∧ n ≤ s.bits.length
      | .fault e pos =>
        t.phase = .err ∧ t.errcode = e ∧ t.errpos.toNat = pos ∧ t.vsumValid = false ∧ t.valueValid = false ∧
          t.root = none ∧ t.bits = s.bits
      | .outOfFuel => False

/-- R130, R139, R182, R282: a message, from START to its end: the unpacked bits, the source's recursive parse of them,
the version sum of that tree and its value, or the fault the source's components meet first. -/
def Obligations.MessageRunMeetsTheSourceContract : Prop :=
  ∀ s : State, s.Inv → s.phase = .unpack → s.turns = [] →
    ∃ k t, Host.Core.run core k s = .next t ∧
      match unpackFrom s s.inlen.toNat 0 with
      | .invalid i => t.phase = .err ∧ t.errcode = .invalidHexDigit ∧ t.errpos.toNat = i
      | .bits bs =>
        t.bits = bs ∧
        match parseMessage s.params.maxDepth bs with
        | .ok n p =>
          t.cur.toNat = n ∧ t.root = some p ∧ t.vsumValid = true ∧ t.vsum.toNat = p.vsumOf ∧
          match p.eval with
          | .ok v => t.phase = .done ∧ t.valueValid = true ∧ t.value.toInt = v
          | .error e => t.phase = .err ∧ t.errcode = e ∧ t.valueValid = false
        | .fault e pos => t.phase = .err ∧ t.errcode = e ∧ t.errpos.toNat = pos ∧ t.vsumValid = false
        | .outOfFuel => False

/-- R35, R272: after START a run is a function of `INBUF[0..INLEN-1]`, `INLEN` and the parameters: two blocks that agree
on them go through the same states, but for the rest of `INBUF` and the data of earlier host reads. -/
def Obligations.TheMessageAloneDeterminesTheRun : Prop :=
  ∀ s s' : State, s.phase.busy = false → s'.phase.busy = false → s.turns = [] → s'.turns = [] →
    s.params = s'.params → s.inlen = s'.inlen →
    (∀ i, i < s.inlen.toNat → s.inbufByte i = s'.inbufByte i) →
    ∀ k t, Host.Core.run core k s.start = .next t →
      Host.Core.run core k s'.start = .next { t with inbuf := s'.inbuf, hostData := s'.hostData }
end

