-- ==== Sys2Proof/Laws/Bits.lean ====
section
/-! SUPPORT. Laws of bit fields: the value of a field's bits and the bits of a value undo each other; a field is read
whole from the front. -/

namespace Sys2Proof

@[simp] theorem bitsOf_length (n v : Nat) : (bitsOf n v).length = n := by
  induction n with
  | zero => rfl
  | succ n ih => simp [bitsOf, ih]

theorem bitsValue_lt (bs : List Bool) : bitsValue bs < 2 ^ bs.length := by
  induction bs with
  | nil => simp [bitsValue]
  | cons b bs ih =>
    simp only [bitsValue, List.length_cons, Nat.pow_succ]
    have : b.toNat ≤ 1 := Bool.toNat_le b
    nlinarith [Nat.mul_le_mul_right (2 ^ bs.length) this]

/-- The value of the low `n` bits of `v`. -/
theorem bitsValue_bitsOf (n v : Nat) : bitsValue (bitsOf n v) = v % 2 ^ n := by
  induction n with
  | zero => simp [bitsOf, bitsValue, Nat.mod_one]
  | succ n ih =>
    simp only [bitsOf, bitsValue, bitsOf_length, ih]
    rw [Nat.mod_pow_succ, Nat.toNat_testBit]
    ring

/-- A bit above a field's own bits does not change the bits below it. -/
theorem bitsOf_congr {n v w : Nat} (h : v % 2 ^ n = w % 2 ^ n) : bitsOf n v = bitsOf n w := by
  induction n with
  | zero => rfl
  | succ n ih =>
    have hb : v.testBit n = w.testBit n := by
      have h1 := congrArg (fun x => x.testBit n) h
      simpa [Nat.testBit_mod_two_pow] using h1
    have hl : v % 2 ^ n = w % 2 ^ n := by
      have h2 := congrArg (fun x => x % 2 ^ n) h
      simpa [Nat.mod_mod_of_dvd _ (Nat.pow_dvd_pow 2 (Nat.le_succ n))] using h2
    simp [bitsOf, hb, ih hl]

/-- The bits of a field's value are the field. -/
theorem bitsOf_bitsValue (bs : List Bool) : bitsOf bs.length (bitsValue bs) = bs := by
  induction bs with
  | nil => rfl
  | cons b bs ih =>
    have hlt := bitsValue_lt bs
    simp only [List.length_cons, bitsOf, bitsValue]
    congr 1
    · cases b
      · simp [Nat.testBit_lt_two_pow hlt]
      · simp [Nat.testBit_two_pow_add_eq, Nat.testBit_lt_two_pow hlt]
    · conv_rhs => rw [← ih]
      exact bitsOf_congr (by simp)

/-- A field is read whole from the front of a bit sequence. -/
theorem readField_append (bs rest : List Bool) :
    readField bs.length (bs ++ rest) = some (BitVec.ofNat bs.length (bitsValue bs), rest) := by
  simp [readField]

/-- Reading back the bits of a value. -/
theorem readField_bitsOf {n : Nat} (x : BitVec n) (rest : List Bool) :
    readField n (bitsOf n x.toNat ++ rest) = some (x, rest) := by
  have h := readField_append (bitsOf n x.toNat) rest
  rw [bitsOf_length, bitsValue_bitsOf, Nat.mod_eq_of_lt x.isLt] at h
  simpa using h

/-- Everything `readField` can do. -/
theorem readField_eq_some {n : Nat} {bs rest : List Bool} {x : BitVec n} (h : readField n bs = some (x, rest)) :
    bs = bitsOf n x.toNat ++ rest := by
  unfold readField at h
  split at h
  · rename_i hn
    simp only [Option.some.injEq, Prod.mk.injEq] at h
    obtain ⟨rfl, rfl⟩ := h
    have hl : (bs.take n).length = n := by simp [hn]
    have hv : (BitVec.ofNat n (bitsValue (bs.take n))).toNat = bitsValue (bs.take n) := by
      have := bitsValue_lt (bs.take n)
      rw [hl] at this
      simp [Nat.mod_eq_of_lt this]
    have hb := bitsOf_bitsValue (bs.take n)
    rw [hl] at hb
    rw [hv, hb, List.take_append_drop]
  · cases h

theorem readField_eq_none {n : Nat} {bs : List Bool} : readField n bs = none ↔ bs.length < n := by
  unfold readField
  split <;> simp <;> omega

end Sys2Proof
end

