-- ==== Sys2Proof/Laws/Literal.lean ====
section
/-! SUPPORT. Laws of a literal's groups: the loop of R150 computes R97's sum or overflows; reading groups undoes
encoding them. -/

namespace Sys2Proof

/-- The loop from `val` comes to `val * 16^k + sum`, or overflows when that passes `2^63 - 1` (R98, R150). -/
theorem accumulate_eq (gs : List Nibble) {val : Nat} (hval : val ≤ maxLiteral) :
    accumulate val gs =
      if val * 16 ^ gs.length + groupsNumber gs ≤ maxLiteral then some (val * 16 ^ gs.length + groupsNumber gs)
      else none := by
  induction gs generalizing val with
  | nil => simp [accumulate, groupsNumber, hval]
  | cons g gs ih =>
    have hassoc : (val * 16 + g.toNat) * 16 ^ gs.length + groupsNumber gs =
        val * 16 ^ (gs.length + 1) + (g.toNat * 16 ^ gs.length + groupsNumber gs) := by ring
    simp only [accumulate, groupsNumber, List.length_cons, ← hassoc]
    split
    · rename_i h
      rw [ih h]
    · rename_i h
      have : val * 16 + g.toNat ≤ (val * 16 + g.toNat) * 16 ^ gs.length := Nat.le_mul_of_pos_right _ (by positivity)
      rw [if_neg (by omega)]

/-- The value of a literal (R97, R151). -/
theorem literalValue_eq (gs : List Nibble) :
    literalValue gs = if groupsNumber gs < 2 ^ 63 then some (groupsNumber gs) else none := by
  rw [literalValue, accumulate_eq gs (by simp [maxLiteral])]
  simp [maxLiteral, Nat.lt_iff_le_pred]

theorem encodeGroups_cons (g : Nibble) (gs : List Nibble) :
    encodeGroups (g :: gs) = (!gs.isEmpty) :: bitsOf 4 g.toNat ++ encodeGroups gs := rfl

@[simp] theorem encodeGroups_length (gs : List Nibble) : (encodeGroups gs).length = 5 * gs.length := by
  induction gs with
  | nil => rfl
  | cons g gs ih => simp [encodeGroups_cons, ih]; omega

/-- One step of reading groups. -/
theorem readGroups_bitsOf (c : Bool) (g : Nibble) (rest : List Bool) :
    readGroups (c :: bitsOf 4 g.toNat ++ rest) =
      if c then (readGroups rest).push g else .complete [g] rest := by
  have hv := bitsValue_bitsOf 4 g.toNat
  rw [Nat.mod_eq_of_lt g.isLt] at hv
  simp only [bitsOf, List.cons_append, List.nil_append, readGroups] at hv ⊢
  rw [hv]
  simp

end Sys2Proof
end

