-- ==== Sys2Proof/Laws/Memory.lean ====
section
/-! SUPPORT. Laws of `INBUF`'s written cells: read after write, other cells, the canonical form. -/

namespace Sys2Proof.Machine

@[simp] theorem Memory.read?_write_same (i : Nat) (b : Byte) (m : Memory) :
    Memory.read? i (Memory.write i b m) = some b := by
  induction m with
  | nil => simp [Memory.write, Memory.read?]
  | cons c m ih =>
    obtain ⟨j, c⟩ := c
    simp only [Memory.write]
    split
    · simp [Memory.read?]
    · split
      · simp [Memory.read?]
      · rename_i h
        simp [Memory.read?, Ne.symm h, ih]

theorem Memory.read?_write_other {i j : Nat} (h : j ≠ i) (b : Byte) (m : Memory) :
    Memory.read? j (Memory.write i b m) = Memory.read? j m := by
  induction m with
  | nil => simp [Memory.write, Memory.read?, Ne.symm h]
  | cons c m ih =>
    obtain ⟨k, c⟩ := c
    simp only [Memory.write]
    split
    · simp [Memory.read?, Ne.symm h]
    · split
      · rename_i hk
        subst hk
        simp [Memory.read?, Ne.symm h]
      · simp [Memory.read?, ih]

theorem Memory.wf_cons {i : Nat} {b : Byte} {m : Memory} :
    Memory.wf ((i, b) :: m) = true ↔ (∀ c ∈ m.head?, i < c.1) ∧ Memory.wf m = true := by
  cases m with
  | nil => simp [Memory.wf]
  | cons c m => simp [Memory.wf]

theorem Memory.head?_write {i : Nat} {b : Byte} {m : Memory} {c : Host.Cell} (h : c ∈ (Memory.write i b m).head?) :
    c.1 = i ∨ c ∈ m.head? := by
  cases m with
  | nil => simp [Memory.write] at h; simp [← h]
  | cons d m =>
    simp only [Memory.write] at h
    split at h
    · simp at h; simp [← h]
    · split at h
      · simp at h; simp [← h]
      · simp at h; simp [← h]

/-- A write keeps the canonical form. -/
theorem Memory.write_wf (i : Nat) (b : Byte) {m : Memory} (h : Memory.wf m = true) :
    Memory.wf (Memory.write i b m) = true := by
  induction m with
  | nil => rfl
  | cons c m ih =>
    obtain ⟨j, c⟩ := c
    have hc := Memory.wf_cons.mp h
    simp only [Memory.write]
    split
    · rename_i hij
      exact Memory.wf_cons.mpr ⟨by simpa using hij, h⟩
    · split
      · rename_i hij
        subst hij
        exact Memory.wf_cons.mpr hc
      · refine Memory.wf_cons.mpr ⟨fun d hd => ?_, ih hc.2⟩
        rcases Memory.head?_write hd with hd | hd
        · omega
        · exact hc.1 d hd

/-- A write adds at most the cell it writes. -/
theorem Memory.mem_write {i : Nat} {b : Byte} {m : Memory} {c : Host.Cell} (h : c ∈ Memory.write i b m) :
    c = (i, b) ∨ c ∈ m := by
  induction m with
  | nil => simpa [Memory.write] using h
  | cons d m ih =>
    simp only [Memory.write] at h
    split at h
    · simpa using h
    · split at h
      · simp only [List.mem_cons] at h ⊢
        tauto
      · simp only [List.mem_cons] at h ⊢
        rcases h with h | h
        · tauto
        · rcases ih h with h | h <;> tauto

/-- Reset memory has the canonical form. -/
theorem reset_inbuf_wf : Memory.wf State.reset.inbuf = true := rfl

theorem inbufByte_writeInbuf_same {i : Nat} {b : Byte} {s : State} (hb : s.phase.busy = false)
    (hi : i < s.params.maxHex) : (s.writeInbuf i b).inbufByte i = b := by
  simp [State.writeInbuf, hb, hi, State.inbufByte]

theorem inbufByte_writeInbuf_other {i j : Nat} (h : j ≠ i) (b : Byte) (s : State) :
    (s.writeInbuf i b).inbufByte j = s.inbufByte j := by
  unfold State.writeInbuf
  split
  · simp [State.inbufByte, Memory.read?_write_other h]
  · rfl

end Sys2Proof.Machine
end

