-- ==== Sys2Proof/Laws/State.lean ====
section
/-! SUPPORT. The field lemmas of the named state updates: what each writes and what it leaves alone. -/

namespace Sys2Proof.Machine

/-! ### takeFault (R222) -/

@[simp] theorem takeFault_inbuf (e : ErrCode) (pos : Pos) (s : State) : (takeFault e pos s).inbuf = s.inbuf := rfl
@[simp] theorem takeFault_inlen (e : ErrCode) (pos : Pos) (s : State) : (takeFault e pos s).inlen = s.inlen := rfl
@[simp] theorem takeFault_phase (e : ErrCode) (pos : Pos) (s : State) : (takeFault e pos s).phase = .err := rfl
@[simp] theorem takeFault_errcode (e : ErrCode) (pos : Pos) (s : State) : (takeFault e pos s).errcode = e := rfl
@[simp] theorem takeFault_vsumValid (e : ErrCode) (pos : Pos) (s : State) : (takeFault e pos s).vsumValid = s.vsumValid := rfl
@[simp] theorem takeFault_valueValid (e : ErrCode) (pos : Pos) (s : State) : (takeFault e pos s).valueValid = s.valueValid := rfl
@[simp] theorem takeFault_vsum (e : ErrCode) (pos : Pos) (s : State) : (takeFault e pos s).vsum = s.vsum := rfl
@[simp] theorem takeFault_value (e : ErrCode) (pos : Pos) (s : State) : (takeFault e pos s).value = s.value := rfl
@[simp] theorem takeFault_cur (e : ErrCode) (pos : Pos) (s : State) : (takeFault e pos s).cur = s.cur := rfl
@[simp] theorem takeFault_errpos (e : ErrCode) (pos : Pos) (s : State) : (takeFault e pos s).errpos = pos := rfl
@[simp] theorem takeFault_bits (e : ErrCode) (pos : Pos) (s : State) : (takeFault e pos s).bits = s.bits := rfl
@[simp] theorem takeFault_stack (e : ErrCode) (pos : Pos) (s : State) : (takeFault e pos s).stack = s.stack := rfl
@[simp] theorem takeFault_root (e : ErrCode) (pos : Pos) (s : State) : (takeFault e pos s).root = s.root := rfl
@[simp] theorem takeFault_params (e : ErrCode) (pos : Pos) (s : State) : (takeFault e pos s).params = s.params := rfl
@[simp] theorem takeFault_turns (e : ErrCode) (pos : Pos) (s : State) : (takeFault e pos s).turns = s.turns := rfl
@[simp] theorem takeFault_hostData (e : ErrCode) (pos : Pos) (s : State) : (takeFault e pos s).hostData = s.hostData := rfl

/-! ### pushFrame (R161, R162) -/

@[simp] theorem pushFrame_inbuf (f : Frame) (n : Nat) (s : State) : (pushFrame f n s).inbuf = s.inbuf := rfl
@[simp] theorem pushFrame_inlen (f : Frame) (n : Nat) (s : State) : (pushFrame f n s).inlen = s.inlen := rfl
@[simp] theorem pushFrame_phase (f : Frame) (n : Nat) (s : State) : (pushFrame f n s).phase = s.phase := rfl
@[simp] theorem pushFrame_errcode (f : Frame) (n : Nat) (s : State) : (pushFrame f n s).errcode = s.errcode := rfl
@[simp] theorem pushFrame_vsumValid (f : Frame) (n : Nat) (s : State) : (pushFrame f n s).vsumValid = s.vsumValid := rfl
@[simp] theorem pushFrame_valueValid (f : Frame) (n : Nat) (s : State) : (pushFrame f n s).valueValid = s.valueValid := rfl
@[simp] theorem pushFrame_vsum (f : Frame) (n : Nat) (s : State) : (pushFrame f n s).vsum = s.vsum := rfl
@[simp] theorem pushFrame_value (f : Frame) (n : Nat) (s : State) : (pushFrame f n s).value = s.value := rfl
@[simp] theorem pushFrame_cur (f : Frame) (n : Nat) (s : State) : (pushFrame f n s).cur = s.curAfter n := rfl
@[simp] theorem pushFrame_errpos (f : Frame) (n : Nat) (s : State) : (pushFrame f n s).errpos = s.errpos := rfl
@[simp] theorem pushFrame_bits (f : Frame) (n : Nat) (s : State) : (pushFrame f n s).bits = s.bits := rfl
@[simp] theorem pushFrame_stack (f : Frame) (n : Nat) (s : State) : (pushFrame f n s).stack = f :: s.stack := rfl
@[simp] theorem pushFrame_root (f : Frame) (n : Nat) (s : State) : (pushFrame f n s).root = s.root := rfl
@[simp] theorem pushFrame_params (f : Frame) (n : Nat) (s : State) : (pushFrame f n s).params = s.params := rfl
@[simp] theorem pushFrame_turns (f : Frame) (n : Nat) (s : State) : (pushFrame f n s).turns = s.turns := rfl
@[simp] theorem pushFrame_hostData (f : Frame) (n : Nat) (s : State) : (pushFrame f n s).hostData = s.hostData := rfl

/-! ### resetMove (R261) -/

@[simp] theorem resetMove_inbuf (s : State) : (s.resetMove).inbuf = s.inbuf := rfl
@[simp] theorem resetMove_inlen (s : State) : (s.resetMove).inlen = 0#32 := rfl
@[simp] theorem resetMove_phase (s : State) : (s.resetMove).phase = .idle := rfl
@[simp] theorem resetMove_errcode (s : State) : (s.resetMove).errcode = .none := rfl
@[simp] theorem resetMove_vsumValid (s : State) : (s.resetMove).vsumValid = false := rfl
@[simp] theorem resetMove_valueValid (s : State) : (s.resetMove).valueValid = false := rfl
@[simp] theorem resetMove_vsum (s : State) : (s.resetMove).vsum = 0#32 := rfl
@[simp] theorem resetMove_value (s : State) : (s.resetMove).value = 0#64 := rfl
@[simp] theorem resetMove_cur (s : State) : (s.resetMove).cur = 0#32 := rfl
@[simp] theorem resetMove_errpos (s : State) : (s.resetMove).errpos = 0#32 := rfl
@[simp] theorem resetMove_bits (s : State) : (s.resetMove).bits = [] := rfl
@[simp] theorem resetMove_stack (s : State) : (s.resetMove).stack = [] := rfl
@[simp] theorem resetMove_root (s : State) : (s.resetMove).root = none := rfl
@[simp] theorem resetMove_params (s : State) : (s.resetMove).params = s.params := rfl
@[simp] theorem resetMove_turns (s : State) : (s.resetMove).turns = s.turns := rfl
@[simp] theorem resetMove_hostData (s : State) : (s.resetMove).hostData = s.hostData := rfl

/-! ### start (R271) -/

@[simp] theorem start_inbuf (s : State) : (s.start).inbuf = s.inbuf := by
  unfold State.start; split <;> rfl
@[simp] theorem start_inlen (s : State) : (s.start).inlen = s.inlen := by
  unfold State.start; split <;> rfl
@[simp] theorem start_params (s : State) : (s.start).params = s.params := by
  unfold State.start; split <;> rfl
@[simp] theorem start_turns (s : State) : (s.start).turns = s.turns := by
  unfold State.start; split <;> rfl
@[simp] theorem start_hostData (s : State) : (s.start).hostData = s.hostData := by
  unfold State.start; split <;> rfl

/-! ### writeInbuf (R62), writeInlen (R25) -/

@[simp] theorem writeInbuf_inlen (i : Nat) (b : Byte) (s : State) : (s.writeInbuf i b).inlen = s.inlen := by
  unfold State.writeInbuf; split <;> rfl
@[simp] theorem writeInbuf_phase (i : Nat) (b : Byte) (s : State) : (s.writeInbuf i b).phase = s.phase := by
  unfold State.writeInbuf; split <;> rfl
@[simp] theorem writeInbuf_errcode (i : Nat) (b : Byte) (s : State) : (s.writeInbuf i b).errcode = s.errcode := by
  unfold State.writeInbuf; split <;> rfl
@[simp] theorem writeInbuf_vsumValid (i : Nat) (b : Byte) (s : State) : (s.writeInbuf i b).vsumValid = s.vsumValid := by
  unfold State.writeInbuf; split <;> rfl
@[simp] theorem writeInbuf_valueValid (i : Nat) (b : Byte) (s : State) : (s.writeInbuf i b).valueValid = s.valueValid := by
  unfold State.writeInbuf; split <;> rfl
@[simp] theorem writeInbuf_vsum (i : Nat) (b : Byte) (s : State) : (s.writeInbuf i b).vsum = s.vsum := by
  unfold State.writeInbuf; split <;> rfl
@[simp] theorem writeInbuf_value (i : Nat) (b : Byte) (s : State) : (s.writeInbuf i b).value = s.value := by
  unfold State.writeInbuf; split <;> rfl
@[simp] theorem writeInbuf_cur (i : Nat) (b : Byte) (s : State) : (s.writeInbuf i b).cur = s.cur := by
  unfold State.writeInbuf; split <;> rfl
@[simp] theorem writeInbuf_errpos (i : Nat) (b : Byte) (s : State) : (s.writeInbuf i b).errpos = s.errpos := by
  unfold State.writeInbuf; split <;> rfl
@[simp] theorem writeInbuf_bits (i : Nat) (b : Byte) (s : State) : (s.writeInbuf i b).bits = s.bits := by
  unfold State.writeInbuf; split <;> rfl
@[simp] theorem writeInbuf_stack (i : Nat) (b : Byte) (s : State) : (s.writeInbuf i b).stack = s.stack := by
  unfold State.writeInbuf; split <;> rfl
@[simp] theorem writeInbuf_root (i : Nat) (b : Byte) (s : State) : (s.writeInbuf i b).root = s.root := by
  unfold State.writeInbuf; split <;> rfl
@[simp] theorem writeInbuf_params (i : Nat) (b : Byte) (s : State) : (s.writeInbuf i b).params = s.params := by
  unfold State.writeInbuf; split <;> rfl
@[simp] theorem writeInbuf_turns (i : Nat) (b : Byte) (s : State) : (s.writeInbuf i b).turns = s.turns := by
  unfold State.writeInbuf; split <;> rfl
@[simp] theorem writeInbuf_hostData (i : Nat) (b : Byte) (s : State) : (s.writeInbuf i b).hostData = s.hostData := by
  unfold State.writeInbuf; split <;> rfl

@[simp] theorem writeInlen_inbuf (v : Pos) (s : State) : (s.writeInlen v).inbuf = s.inbuf := by
  unfold State.writeInlen; split <;> rfl
@[simp] theorem writeInlen_phase (v : Pos) (s : State) : (s.writeInlen v).phase = s.phase := by
  unfold State.writeInlen; split <;> rfl
@[simp] theorem writeInlen_errcode (v : Pos) (s : State) : (s.writeInlen v).errcode = s.errcode := by
  unfold State.writeInlen; split <;> rfl
@[simp] theorem writeInlen_vsumValid (v : Pos) (s : State) : (s.writeInlen v).vsumValid = s.vsumValid := by
  unfold State.writeInlen; split <;> rfl
@[simp] theorem writeInlen_valueValid (v : Pos) (s : State) : (s.writeInlen v).valueValid = s.valueValid := by
  unfold State.writeInlen; split <;> rfl
@[simp] theorem writeInlen_vsum (v : Pos) (s : State) : (s.writeInlen v).vsum = s.vsum := by
  unfold State.writeInlen; split <;> rfl
@[simp] theorem writeInlen_value (v : Pos) (s : State) : (s.writeInlen v).value = s.value := by
  unfold State.writeInlen; split <;> rfl
@[simp] theorem writeInlen_cur (v : Pos) (s : State) : (s.writeInlen v).cur = s.cur := by
  unfold State.writeInlen; split <;> rfl
@[simp] theorem writeInlen_errpos (v : Pos) (s : State) : (s.writeInlen v).errpos = s.errpos := by
  unfold State.writeInlen; split <;> rfl
@[simp] theorem writeInlen_bits (v : Pos) (s : State) : (s.writeInlen v).bits = s.bits := by
  unfold State.writeInlen; split <;> rfl
@[simp] theorem writeInlen_stack (v : Pos) (s : State) : (s.writeInlen v).stack = s.stack := by
  unfold State.writeInlen; split <;> rfl
@[simp] theorem writeInlen_root (v : Pos) (s : State) : (s.writeInlen v).root = s.root := by
  unfold State.writeInlen; split <;> rfl
@[simp] theorem writeInlen_params (v : Pos) (s : State) : (s.writeInlen v).params = s.params := by
  unfold State.writeInlen; split <;> rfl
@[simp] theorem writeInlen_turns (v : Pos) (s : State) : (s.writeInlen v).turns = s.turns := by
  unfold State.writeInlen; split <;> rfl
@[simp] theorem writeInlen_hostData (v : Pos) (s : State) : (s.writeInlen v).hostData = s.hostData := by
  unfold State.writeInlen; split <;> rfl

/-! ### deliver (R133) -/

@[simp] theorem deliver_inbuf (p : Packet) (cur : Pos) (s : State) : (deliver p cur s).inbuf = s.inbuf := by
  unfold deliver; split <;> rfl
@[simp] theorem deliver_inlen (p : Packet) (cur : Pos) (s : State) : (deliver p cur s).inlen = s.inlen := by
  unfold deliver; split <;> rfl
@[simp] theorem deliver_vsumValid (p : Packet) (cur : Pos) (s : State) : (deliver p cur s).vsumValid = s.vsumValid := by
  unfold deliver; split <;> rfl
@[simp] theorem deliver_valueValid (p : Packet) (cur : Pos) (s : State) : (deliver p cur s).valueValid = s.valueValid := by
  unfold deliver; split <;> rfl
@[simp] theorem deliver_vsum (p : Packet) (cur : Pos) (s : State) : (deliver p cur s).vsum = s.vsum := by
  unfold deliver; split <;> rfl
@[simp] theorem deliver_value (p : Packet) (cur : Pos) (s : State) : (deliver p cur s).value = s.value := by
  unfold deliver; split <;> rfl
@[simp] theorem deliver_bits (p : Packet) (cur : Pos) (s : State) : (deliver p cur s).bits = s.bits := by
  unfold deliver; split <;> rfl
@[simp] theorem deliver_params (p : Packet) (cur : Pos) (s : State) : (deliver p cur s).params = s.params := by
  unfold deliver; split <;> rfl
@[simp] theorem deliver_turns (p : Packet) (cur : Pos) (s : State) : (deliver p cur s).turns = s.turns := by
  unfold deliver; split <;> rfl
@[simp] theorem deliver_hostData (p : Packet) (cur : Pos) (s : State) : (deliver p cur s).hostData = s.hostData := by
  unfold deliver; split <;> rfl

/-! ### takeReject, unpackStep (R121) -/

@[simp] theorem takeReject_inbuf (r : Reject) (s : State) : (takeReject r s).inbuf = s.inbuf := by
  cases r <;> rfl
@[simp] theorem takeReject_inlen (r : Reject) (s : State) : (takeReject r s).inlen = s.inlen := by
  cases r <;> rfl
@[simp] theorem takeReject_vsumValid (r : Reject) (s : State) : (takeReject r s).vsumValid = s.vsumValid := by
  cases r <;> rfl
@[simp] theorem takeReject_valueValid (r : Reject) (s : State) : (takeReject r s).valueValid = s.valueValid := by
  cases r <;> rfl
@[simp] theorem takeReject_vsum (r : Reject) (s : State) : (takeReject r s).vsum = s.vsum := by
  cases r <;> rfl
@[simp] theorem takeReject_value (r : Reject) (s : State) : (takeReject r s).value = s.value := by
  cases r <;> rfl
@[simp] theorem takeReject_cur (r : Reject) (s : State) : (takeReject r s).cur = s.cur := by
  cases r <;> rfl
@[simp] theorem takeReject_bits (r : Reject) (s : State) : (takeReject r s).bits = s.bits := by
  cases r <;> rfl
@[simp] theorem takeReject_stack (r : Reject) (s : State) : (takeReject r s).stack = s.stack := by
  cases r <;> rfl
@[simp] theorem takeReject_root (r : Reject) (s : State) : (takeReject r s).root = s.root := by
  cases r <;> rfl
@[simp] theorem takeReject_params (r : Reject) (s : State) : (takeReject r s).params = s.params := by
  cases r <;> rfl
@[simp] theorem takeReject_turns (r : Reject) (s : State) : (takeReject r s).turns = s.turns := by
  cases r <;> rfl
@[simp] theorem takeReject_hostData (r : Reject) (s : State) : (takeReject r s).hostData = s.hostData := by
  cases r <;> rfl

@[simp] theorem unpackStep_inbuf (s : State) : (unpackStep s).inbuf = s.inbuf := by
  unfold unpackStep; split <;> rfl
@[simp] theorem unpackStep_inlen (s : State) : (unpackStep s).inlen = s.inlen := by
  unfold unpackStep; split <;> rfl
@[simp] theorem unpackStep_vsumValid (s : State) : (unpackStep s).vsumValid = s.vsumValid := by
  unfold unpackStep; split <;> rfl
@[simp] theorem unpackStep_valueValid (s : State) : (unpackStep s).valueValid = s.valueValid := by
  unfold unpackStep; split <;> rfl
@[simp] theorem unpackStep_vsum (s : State) : (unpackStep s).vsum = s.vsum := by
  unfold unpackStep; split <;> rfl
@[simp] theorem unpackStep_value (s : State) : (unpackStep s).value = s.value := by
  unfold unpackStep; split <;> rfl
@[simp] theorem unpackStep_cur (s : State) : (unpackStep s).cur = s.cur := by
  unfold unpackStep; split <;> rfl
@[simp] theorem unpackStep_stack (s : State) : (unpackStep s).stack = s.stack := by
  unfold unpackStep; split <;> rfl
@[simp] theorem unpackStep_root (s : State) : (unpackStep s).root = s.root := by
  unfold unpackStep; split <;> rfl
@[simp] theorem unpackStep_params (s : State) : (unpackStep s).params = s.params := by
  unfold unpackStep; split <;> rfl
@[simp] theorem unpackStep_turns (s : State) : (unpackStep s).turns = s.turns := by
  unfold unpackStep; split <;> rfl
@[simp] theorem unpackStep_hostData (s : State) : (unpackStep s).hostData = s.hostData := by
  unfold unpackStep; split <;> rfl

/-! ### hostMove (R270) -/

@[simp] theorem hostMove_params (m : HostMove) (s : State) : (hostMove m s).params = s.params := by
  cases m with
  | writeReg n d =>
    simp only [hostMove, State.writeReg]
    split
    · split <;> simp
    · simp
    · rfl
  | _ => simp [hostMove]
@[simp] theorem hostMove_turns (m : HostMove) (s : State) : (hostMove m s).turns = s.turns := by
  cases m with
  | writeReg n d =>
    simp only [hostMove, State.writeReg]
    split
    · split <;> simp
    · simp
    · rfl
  | _ => simp [hostMove]

end Sys2Proof.Machine
end

