-- ==== Sys2Proof/Laws/Ops.lean ====
section
/-! SUPPORT. What each shared operation can do, once: `headL`, `headN`, `deliver`, `exec`. -/

namespace Sys2Proof.Machine

/-- Everything `HeadL` can do (R161). -/
theorem headL_cases (k : OpKind) (v : Version) (l : Length) (s : State) :
    (l = 0#15 ∧ headL k v l s = .next (takeFault .malformedLength s.cur s)) ∨
    (l ≠ 0#15 ∧ s.params.maxDepth ≤ s.depth ∧ headL k v l s = .next (takeFault .recursionLimitExceeded s.cur s)) ∨
    (l ≠ 0#15 ∧ s.depth < s.params.maxDepth ∧ headL k v l s = .next (pushFrame
      { ver := v, typeId := k.typeId, extent := .region (regionEnd s.cur l), start := s.cur, subs := [] } 22 s)) := by
  unfold headL
  split
  · simp_all
  · split
    · simp_all
    · exact .inr (.inr ⟨by assumption, by omega, rfl⟩)

/-- Everything `HeadN` can do (R162). -/
theorem headN_cases (k : OpKind) (v : Version) (n : Count) (s : State) :
    (n = 0#11 ∧ headN k v n s = .next (takeFault .malformedLength s.cur s)) ∨
    (n ≠ 0#11 ∧ s.params.maxDepth ≤ s.depth ∧ headN k v n s = .next (takeFault .recursionLimitExceeded s.cur s)) ∨
    (n ≠ 0#11 ∧ s.depth < s.params.maxDepth ∧ headN k v n s = .next (pushFrame
      { ver := v, typeId := k.typeId, extent := .count n, start := s.cur, subs := [] } 18 s)) := by
  unfold headN
  split
  · simp_all
  · split
    · simp_all
    · exact .inr (.inr ⟨by assumption, by omega, rfl⟩)

/-- Everything `Deliver` can do (R133). -/
theorem deliver_cases (p : Packet) (cur : Pos) (s : State) :
    (∃ st, deliverTo cur s.stack p = .waiting st ∧ deliver p cur s = { s with cur := cur, stack := st }) ∨
    (∃ r, deliverTo cur s.stack p = .root r ∧
      deliver p cur s = { s with cur := cur, stack := [], root := some r, phase := .foldV }) ∨
    (∃ a, deliverTo cur s.stack p = .overshoot a ∧ deliver p cur s = takeFault .malformedLength a s) := by
  unfold deliver
  cases h : deliverTo cur s.stack p <;> simp

/-- Everything `LIT` can do (R150). -/
theorem execLit_cases (v : Version) (gs : List Nibble) (s : State) :
    (2 ^ 63 ≤ groupsNumber gs ∧ execLit v gs s = .next (takeFault .arithmeticOverflow s.cur s)) ∨
    (groupsNumber gs < 2 ^ 63 ∧ execLit v gs s =
      .next (deliver (.literal v (BitVec.ofNat 64 (groupsNumber gs))) (s.curAfter (6 + 5 * gs.length)) s)) := by
  unfold execLit
  rw [literalValue_eq]
  by_cases h : groupsNumber gs < 2 ^ 63
  · rw [if_pos h]
    exact .inr ⟨h, rfl⟩
  · rw [if_neg h]
    exact .inl ⟨by omega, rfl⟩

/-- What an instruction is, by its format (R90): `exec` runs the literal or one of the two operator heads. -/
theorem exec_eq_form (i : Instr) (s : State) :
    exec i s =
      match i.form with
      | .literal v gs => execLit v gs s
      | .total k v l => headL k v l s
      | .counted k v n => headN k v n s := by
  cases i <;> rfl

/-- Every instruction answers a next state. -/
theorem exec_next (i : Instr) (s : State) : ∃ t, exec i s = .next t := by
  rw [exec_eq_form]
  split
  · rename_i v gs _
    rcases execLit_cases v gs s with h | h <;> exact ⟨_, h.2⟩
  · rename_i k v l _
    rcases headL_cases k v l s with h | h | h
    · exact ⟨_, h.2⟩
    · exact ⟨_, h.2.2⟩
    · exact ⟨_, h.2.2⟩
  · rename_i k v n _
    rcases headN_cases k v n s with h | h | h
    · exact ⟨_, h.2⟩
    · exact ⟨_, h.2.2⟩
    · exact ⟨_, h.2.2⟩

end Sys2Proof.Machine
end

