-- ==== Sys2Proof/Laws/PerInstr.lean ====
section
/-! SUPPORT. A law of every instruction as syntax: the length of its encoding is the length of its head (R26, R96). -/

namespace Sys2Proof.Laws.HeadLength

/-- `6 + 5k`, 22 or 18 bits. -/
def Statement (i : Instr) : Prop := (encode i).length = i.headBits

theorem lit (version : Version) (groups : List Nibble) : Statement (.lit version groups) := by
  simp [Statement, encode, Instr.headBits, Instr.form]
  omega

theorem sumL (version : Version) (length : Length) : Statement (.sumL version length) := by
  simp [Statement, encode, Instr.headBits, Instr.form]

theorem sumN (version : Version) (count : Count) : Statement (.sumN version count) := by
  simp [Statement, encode, Instr.headBits, Instr.form]

theorem prodL (version : Version) (length : Length) : Statement (.prodL version length) := by
  simp [Statement, encode, Instr.headBits, Instr.form]

theorem prodN (version : Version) (count : Count) : Statement (.prodN version count) := by
  simp [Statement, encode, Instr.headBits, Instr.form]

theorem minL (version : Version) (length : Length) : Statement (.minL version length) := by
  simp [Statement, encode, Instr.headBits, Instr.form]

theorem minN (version : Version) (count : Count) : Statement (.minN version count) := by
  simp [Statement, encode, Instr.headBits, Instr.form]

theorem maxL (version : Version) (length : Length) : Statement (.maxL version length) := by
  simp [Statement, encode, Instr.headBits, Instr.form]

theorem maxN (version : Version) (count : Count) : Statement (.maxN version count) := by
  simp [Statement, encode, Instr.headBits, Instr.form]

theorem gtL (version : Version) (length : Length) : Statement (.gtL version length) := by
  simp [Statement, encode, Instr.headBits, Instr.form]

theorem gtN (version : Version) (count : Count) : Statement (.gtN version count) := by
  simp [Statement, encode, Instr.headBits, Instr.form]

theorem ltL (version : Version) (length : Length) : Statement (.ltL version length) := by
  simp [Statement, encode, Instr.headBits, Instr.form]

theorem ltN (version : Version) (count : Count) : Statement (.ltN version count) := by
  simp [Statement, encode, Instr.headBits, Instr.form]

theorem eqL (version : Version) (length : Length) : Statement (.eqL version length) := by
  simp [Statement, encode, Instr.headBits, Instr.form]

theorem eqN (version : Version) (count : Count) : Statement (.eqN version count) := by
  simp [Statement, encode, Instr.headBits, Instr.form]

end Sys2Proof.Laws.HeadLength
end

