-- ==== Sys2Proof/Tests/Slice0.lean ====
section
/-! SUPPORT. Tests of the model, each on one step or one function, with expected results from spec/95_test_vectors.md or
from the rule named; and for every statement with hypotheses a witness that meets them. -/

namespace Sys2Proof.Tests

open Sys2Proof Sys2Proof.Machine

/-! ### Helpers -/

/-- The bits of hexadecimal digits. -/
def hexBits (ds : List Nat) : List Bool := ds.flatMap (bitsOf 4)

/-- A state in PARSE over hexadecimal digits. -/
def parsing (ds : List Nat) (cur : Pos) (stack : List Frame) : State :=
  { State.reset with
    phase := .parse, inlen := BitVec.ofNat 32 ds.length, bits := hexBits ds, cur := cur, stack := stack }

/-- The next state of an outcome. -/
def nextOf (o : Host.Outcome State Machine.Fault Refusal) : Option State :=
  match o with
  | .next t => some t
  | _ => none

/-- A message in `INBUF`, the host's turns for it, and the state they are taken from. -/
def loading (cs : List Byte) : State := { State.reset with turns := (messageMoves cs).map .host }

/-- The message of some characters in `INBUF`, started. -/
def started (cs : List Byte) : State := hostMoves (messageMoves cs) State.reset

/-- The value of an evaluation, if it is one. -/
def valueOf (r : Except ErrCode Int) : Option Int := r.toOption

/-- The fault of an evaluation, or `none`. -/
def faultOf (r : Except ErrCode Int) : ErrCode :=
  match r with
  | .ok _ => .none
  | .error e => e

/-- An operator packet over literals. -/
def opOver (t : TypeId) (xs : List Value) : Packet := .operator 0#3 t (Packets.ofList (xs.map (Packet.literal 0#3)))

/-! ### WellFormed: a term each check refuses -/

theorem test_literal_without_groups_refused : Instr.encodable (.lit 0#3 []) = false ∧ Instr.wellFormed (.lit 0#3 []) = false := by
  decide

/-- R98, R104: `2^63`, sixteen nibbles, the first 8. -/
theorem test_literal_too_large_refused :
    Instr.wellFormed (.lit 0#3 (8#4 :: List.replicate 15 0#4)) = false := by decide

/-- R98: `2^63 - 1` with two leading zero groups (T28). -/
theorem test_largest_literal_accepted :
    Instr.wellFormed (.lit 2#3 ([0#4, 0#4, 7#4] ++ List.replicate 15 15#4)) = true := by decide

/-- R103. -/
theorem test_empty_region_refused : Instr.wellFormed (.sumL 1#3 0#15) = false ∧ Instr.wellFormed (.gtL 1#3 0#15) = false := by
  decide

/-- R103. -/
theorem test_zero_count_refused : Instr.wellFormed (.sumN 1#3 0#11) = false ∧ Instr.wellFormed (.eqN 1#3 0#11) = false := by
  decide

/-! ### Decode and encode: words written out from the spec -/

/-- V1. -/
theorem test_decode_lit :
    decode (bitsOf 21 0b110100101111111000101 ++ [true]) = .instr (.lit 6#3 [7#4, 14#4, 5#4]) [true] ∧
      encode (.lit 6#3 [7#4, 14#4, 5#4]) = bitsOf 21 0b110100101111111000101 := by decide

/-- T120. -/
theorem test_decode_sumL :
    decode (bitsOf 22 0b0000000000000000010110 ++ [true]) = .instr (.sumL 0#3 22#15) [true] ∧
      encode (.sumL 0#3 22#15) = bitsOf 22 0b0000000000000000010110 := by decide

/-- V7. -/
theorem test_decode_sumN :
    decode (bitsOf 18 0b110000100000000010 ++ [true]) = .instr (.sumN 6#3 2#11) [true] ∧
      encode (.sumN 6#3 2#11) = bitsOf 18 0b110000100000000010 := by decide

/-- V8. -/
theorem test_decode_prodL :
    decode (bitsOf 22 0b0000010000000000010110 ++ [true]) = .instr (.prodL 0#3 22#15) [true] ∧
      encode (.prodL 0#3 22#15) = bitsOf 22 0b0000010000000000010110 := by decide

/-- P2. -/
theorem test_decode_prodN :
    decode (bitsOf 18 0b010001100000000001 ++ [true]) = .instr (.prodN 2#3 1#11) [true] ∧
      encode (.prodN 2#3 1#11) = bitsOf 18 0b010001100000000001 := by decide

/-- V3. -/
theorem test_decode_minL :
    decode (bitsOf 22 0b1010100000000000001011 ++ [true]) = .instr (.minL 5#3 11#15) [true] ∧
      encode (.minL 5#3 11#15) = bitsOf 22 0b1010100000000000001011 := by decide

/-- V3. -/
theorem test_decode_minN :
    decode (bitsOf 18 0b001010100000000001 ++ [true]) = .instr (.minN 1#3 1#11) [true] ∧
      encode (.minN 1#3 1#11) = bitsOf 18 0b001010100000000001 := by decide

/-- P2. -/
theorem test_decode_maxL :
    decode (bitsOf 22 0b0110110000000000001011 ++ [true]) = .instr (.maxL 3#3 11#15) [true] ∧
      encode (.maxL 3#3 11#15) = bitsOf 22 0b0110110000000000001011 := by decide

/-- T40. -/
theorem test_decode_maxN :
    decode (bitsOf 18 0b111011100000000011 ++ [true]) = .instr (.maxN 7#3 3#11) [true] ∧
      encode (.maxN 7#3 3#11) = bitsOf 18 0b111011100000000011 := by decide

/-- T124. -/
theorem test_decode_gtL :
    decode (bitsOf 22 0b0001010000000000010110 ++ [true]) = .instr (.gtL 0#3 22#15) [true] ∧
      encode (.gtL 0#3 22#15) = bitsOf 22 0b0001010000000000010110 := by decide

/-- P4. -/
theorem test_decode_gtN :
    decode (bitsOf 18 0b001101100000000011 ++ [true]) = .instr (.gtN 1#3 3#11) [true] ∧
      encode (.gtN 1#3 3#11) = bitsOf 18 0b001101100000000011 := by decide

/-- V2. -/
theorem test_decode_ltL :
    decode (bitsOf 22 0b0011100000000000011011 ++ [true]) = .instr (.ltL 1#3 27#15) [true] ∧
      encode (.ltL 1#3 27#15) = bitsOf 22 0b0011100000000000011011 := by decide

/-- T66. -/
theorem test_decode_ltN :
    decode (bitsOf 18 0b000110100000000010 ++ [true]) = .instr (.ltN 0#3 2#11) [true] ∧
      encode (.ltN 0#3 2#11) = bitsOf 18 0b000110100000000010 := by decide

/-- P1. -/
theorem test_decode_eqL :
    decode (bitsOf 22 0b1001110000000001010000 ++ [true]) = .instr (.eqL 4#3 80#15) [true] ∧
      encode (.eqL 4#3 80#15) = bitsOf 22 0b1001110000000001010000 := by decide

/-- T82. -/
theorem test_decode_eqN :
    decode (bitsOf 18 0b010111100000000001 ++ [true]) = .instr (.eqN 2#3 1#11) [true] ∧
      encode (.eqN 2#3 1#11) = bitsOf 18 0b010111100000000001 := by decide

/-- R100: the word of each table row, zeros after it, is that row's instruction. -/
theorem test_table_words :
    ([0x08, 0x00, 0x01, 0x02, 0x03, 0x04, 0x05, 0x06, 0x07, 0x0A, 0x0B, 0x0C, 0x0D, 0x0E, 0x0F].map
      (fun w => (decodeTableWord 8 w).map Instr.mnemonic)) = opcodeTable.map (fun r => some r.mnemonic) := by decide

/-- A word of the table as the first instruction after reset: `SUM.L` with `L = 0` takes `MalformedLength` (T100). -/
theorem test_fetch_word_after_reset :
    (nextOf (step (State.reset.withFetchWord 8 0x00))).map (fun t => (t.phase, t.errcode, t.errpos)) =
      some (.err, .malformedLength, 0#32) := by decide

/-- `LIT v0, 0` as the first instruction after reset (T20). -/
theorem test_fetch_literal_after_reset :
    (nextOf (step (State.reset.withFetchWord 8 0x08))).map (fun t => (t.phase, t.cur, t.root)) =
      some (.foldV, 11#32, some (.literal 0#3 0#64)) := by decide

/-! ### Instructions, one step each -/

/-- T120: the first PARSE step. -/
theorem test_step_sumL :
    (nextOf (step (parsing [0x0, 0x0, 0x0, 0x0, 0x5, 0x8, 0x4, 0x2, 0x0, 0x8, 0x6] 0#32 []))).map (fun t => (t.phase, t.cur, t.stack)) =
      some (.parse, 22#32, [{ ver := 0#3, typeId := 0#3, extent := .region 44#32, start := 0#32, subs := [] }]) := by
  decide

/-- V7: the first PARSE step. -/
theorem test_step_sumN :
    (nextOf (step (parsing [0xC, 0x2, 0x0, 0x0, 0xB, 0x4, 0x0, 0xA, 0x8, 0x2] 0#32 []))).map (fun t => (t.phase, t.cur, t.stack)) =
      some (.parse, 18#32, [{ ver := 6#3, typeId := 0#3, extent := .count 2#11, start := 0#32, subs := [] }]) := by
  decide

/-- V8: the first PARSE step. -/
theorem test_step_prodL :
    (nextOf (step (parsing [0x0, 0x4, 0x0, 0x0, 0x5, 0xA, 0xC, 0x3, 0x3, 0x8, 0x9, 0x0] 0#32 []))).map (fun t => (t.phase, t.cur, t.stack)) =
      some (.parse, 22#32, [{ ver := 0#3, typeId := 1#3, extent := .region 44#32, start := 0#32, subs := [] }]) := by
  decide

/-- T122: the first PARSE step. -/
theorem test_step_prodN :
    (nextOf (step (parsing [0x0, 0x6, 0x0, 0x0, 0x8, 0x4, 0x3, 0x8, 0x8, 0x9] 0#32 []))).map (fun t => (t.phase, t.cur, t.stack)) =
      some (.parse, 18#32, [{ ver := 0#3, typeId := 1#3, extent := .count 2#11, start := 0#32, subs := [] }]) := by
  decide

/-- V9: the first PARSE step. -/
theorem test_step_minL :
    (nextOf (step (parsing [0x8, 0x8, 0x0, 0x0, 0x8, 0x6, 0xC, 0x3, 0xE, 0x8, 0x8, 0x1, 0x1, 0x2] 0#32 []))).map (fun t => (t.phase, t.cur, t.stack)) =
      some (.parse, 22#32, [{ ver := 4#3, typeId := 2#3, extent := .region 55#32, start := 0#32, subs := [] }]) := by
  decide

/-- V3: the first PARSE step. -/
theorem test_step_minN :
    (nextOf (step (parsing [0x8, 0xA, 0x0, 0x0, 0x4, 0xA, 0x8, 0x0, 0x1, 0xA, 0x8, 0x0, 0x0, 0x2, 0xF, 0x4, 0x7, 0x8] 0#32 []))).map (fun t => (t.phase, t.cur, t.stack)) =
      some (.parse, 18#32, [{ ver := 4#3, typeId := 2#3, extent := .count 1#11, start := 0#32, subs := [] }]) := by
  decide

/-- T123: the first PARSE step. -/
theorem test_step_maxL :
    (nextOf (step (parsing [0x0, 0xC, 0x0, 0x0, 0x5, 0x8, 0x4, 0x2, 0x0, 0x8, 0x6] 0#32 []))).map (fun t => (t.phase, t.cur, t.stack)) =
      some (.parse, 22#32, [{ ver := 0#3, typeId := 3#3, extent := .region 44#32, start := 0#32, subs := [] }]) := by
  decide

/-- V10: the first PARSE step. -/
theorem test_step_maxN :
    (nextOf (step (parsing [0xC, 0xE, 0x0, 0x0, 0xC, 0x4, 0x3, 0xD, 0x8, 0x8, 0x1, 0x1, 0x2, 0x0] 0#32 []))).map (fun t => (t.phase, t.cur, t.stack)) =
      some (.parse, 18#32, [{ ver := 6#3, typeId := 3#3, extent := .count 3#11, start := 0#32, subs := [] }]) := by
  decide

/-- T124: the first PARSE step. -/
theorem test_step_gtL :
    (nextOf (step (parsing [0x1, 0x4, 0x0, 0x0, 0x5, 0xA, 0xC, 0x4, 0xA, 0x8, 0x7] 0#32 []))).map (fun t => (t.phase, t.cur, t.stack)) =
      some (.parse, 22#32, [{ ver := 0#3, typeId := 5#3, extent := .region 44#32, start := 0#32, subs := [] }]) := by
  decide

/-- P4: the first PARSE step. -/
theorem test_step_gtN :
    (nextOf (step (parsing [0x3, 0x6, 0x0, 0x0, 0xC, 0xC, 0x0, 0xA, 0x8, 0x2, 0x7, 0x0, 0x6] 0#32 []))).map (fun t => (t.phase, t.cur, t.stack)) =
      some (.parse, 18#32, [{ ver := 1#3, typeId := 5#3, extent := .count 3#11, start := 0#32, subs := [] }]) := by
  decide

/-- V2: the first PARSE step. -/
theorem test_step_ltL :
    (nextOf (step (parsing [0x3, 0x8, 0x0, 0x0, 0x6, 0xF, 0x4, 0x5, 0x2, 0x9, 0x1, 0x2, 0x0, 0x0] 0#32 []))).map (fun t => (t.phase, t.cur, t.stack)) =
      some (.parse, 22#32, [{ ver := 1#3, typeId := 6#3, extent := .region 49#32, start := 0#32, subs := [] }]) := by
  decide

/-- T66: the first PARSE step. -/
theorem test_step_ltN :
    (nextOf (step (parsing [0x1, 0xA, 0x0, 0x0, 0x8, 0x4, 0x3, 0x8, 0x8, 0x8] 0#32 []))).map (fun t => (t.phase, t.cur, t.stack)) =
      some (.parse, 18#32, [{ ver := 0#3, typeId := 6#3, extent := .count 2#11, start := 0#32, subs := [] }]) := by
  decide

/-- P1: the first PARSE step. -/
theorem test_step_eqL :
    (nextOf (step (parsing [0x9, 0xC, 0x0, 0x1, 0x4, 0x1, 0x0, 0x8, 0x0, 0x2, 0x5, 0x0, 0x3, 0x2, 0x0, 0xF, 0x1, 0x8, 0x0, 0x2, 0x1, 0x0, 0x4, 0xA, 0x0, 0x8] 0#32 []))).map (fun t => (t.phase, t.cur, t.stack)) =
      some (.parse, 22#32, [{ ver := 4#3, typeId := 7#3, extent := .region 102#32, start := 0#32, subs := [] }]) := by
  decide

/-- T82: the first PARSE step. -/
theorem test_step_eqN :
    (nextOf (step (parsing [0x5, 0xE, 0x0, 0x0, 0x5, 0xC, 0x4, 0x8] 0#32 []))).map (fun t => (t.phase, t.cur, t.stack)) =
      some (.parse, 18#32, [{ ver := 2#3, typeId := 7#3, extent := .count 1#11, start := 0#32, subs := [] }]) := by
  decide

/-- V1: `LIT v6, 2021` is the root. -/
theorem test_step_lit_root :
    (nextOf (step (parsing [0xD, 0x2, 0xF, 0xE, 0x2, 0x8] 0#32 []))).map (fun t => (t.phase, t.cur, t.root)) =
      some (.foldV, 21#32, some (.literal 6#3 2021#64)) := by decide

/-- The stack of P2 before its last literal. -/
def p2Stack : List Frame :=
  [{ ver := 3#3, typeId := 3#3, extent := .region 73#32, start := 40#32, subs := [] },
    { ver := 2#3, typeId := 1#3, extent := .count 1#11, start := 22#32, subs := [] },
    { ver := 1#3, typeId := 0#3, extent := .region 73#32, start := 0#32, subs := [] }]

/-- P2 before its step 5. -/
def p2State : State := parsing [0x2, 0x0, 0x0, 0x0, 0xC, 0xD, 0x1, 0x8, 0x0, 0x1, 0x6, 0xC, 0x0, 0x0, 0x2, 0xE, 0x4, 0x2, 0x8] 62#32 p2Stack

/-- P2 step 5: one literal closes three frames. -/
theorem test_step_lit_closes_three_frames :
    (nextOf (step p2State)).map (fun t => (t.phase, t.cur, t.depth, t.root)) =
      some (.foldV, 73#32, 0,
        some (.operator 1#3 0#3 (.cons (.operator 2#3 1#3 (.cons (.operator 3#3 3#3 (.cons (.literal 4#3 5#64) .nil)) .nil))
          .nil))) := by decide

/-- The frame of P3 before its step 4. -/
def p3Frame : Frame :=
  { ver := 1#3, typeId := 0#3, extent := .region 34#32, start := 0#32, subs := [.literal 1#3 1#64] }

/-- P3 before its step 4. -/
def p3State : State := parsing [0x2, 0x0, 0x0, 0x0, 0x3, 0x0, 0xC, 0x0, 0xA, 0x8, 0x2] 33#32 [p3Frame]

/-- P3 step 4: the overshoot faults and keeps none of the step's writes. -/
theorem test_overshoot_is_undone :
    nextOf (step p3State) = some { p3State with phase := .err, errcode := .malformedLength, errpos := 0#32 } := by decide

/-- T112: a cut operator head. -/
theorem test_cut_head :
    (nextOf (step (parsing [0x0, 0x0] 0#32 []))).map (fun t => (t.errcode, t.errpos, t.cur)) =
      some (.unexpectedEndOfBits, 0#32, 0#32) := by decide

/-- T31: the range test of a group comes before the missing group after it. -/
theorem test_cut_literal_overflows_first :
    (nextOf (step (parsing [0x1, 0x3, 0x1, 0x0, 0x8, 0x4, 0x2, 0x1, 0x0, 0x8, 0x4, 0x2, 0x1, 0x0, 0x8, 0x4, 0x2, 0x1, 0x0, 0x8, 0x4, 0x2] 0#32 []))).map (fun t => t.errcode) =
      some .arithmeticOverflow := by decide

/-- T32: the same length, in range. -/
theorem test_cut_literal_ends :
    (nextOf (step (parsing [0x1, 0x2, 0x3, 0x1, 0x8, 0xC, 0x6, 0x3, 0x1, 0x8, 0xC, 0x6, 0x3, 0x1, 0x8, 0xC, 0x6, 0x3, 0x1, 0x8, 0xC, 0x4] 0#32 []))).map (fun t => t.errcode) =
      some .unexpectedEndOfBits := by decide

/-- T26: `2^63` in a complete literal. -/
theorem test_literal_overflow :
    (nextOf (step (parsing [0x5, 0x3, 0x1, 0x0, 0x8, 0x4, 0x2, 0x1, 0x0, 0x8, 0x4, 0x2, 0x1, 0x0, 0x8, 0x4, 0x2, 0x1, 0x0, 0x8, 0x0, 0x0] 0#32 []))).map (fun t => (t.errcode, t.cur)) =
      some (.arithmeticOverflow, 0#32) := by decide

/-- Three open frames. -/
def threeFrames : List Frame :=
  [{ ver := 1#3, typeId := 2#3, extent := .count 1#11, start := 36#32, subs := [] },
    { ver := 1#3, typeId := 2#3, extent := .count 1#11, start := 18#32, subs := [] },
    { ver := 1#3, typeId := 2#3, extent := .count 1#11, start := 0#32, subs := [] }]

/-- T71 before its last step, with `MAX_DEPTH` = 3. -/
def t71State : State :=
  { parsing [0x2, 0xA, 0x0, 0x0, 0x4, 0xA, 0x8, 0x0, 0x1, 0x2, 0xA, 0x0, 0x0, 0x4, 0xA, 0x8, 0x0, 0x1, 0x3, 0x0, 0x2] 54#32 threeFrames with
    params := { maxHex := 4096, maxDepth := 3, hexCase := .both } }

/-- T71: the fourth operator at `MAX_DEPTH` = 3. -/
theorem test_depth_guard :
    (nextOf (step t71State)).map (fun t => (t.errcode, t.errpos, t.cur, t.depth)) =
      some (.recursionLimitExceeded, 54#32, 54#32, 3) := by decide

/-- T79: with `N` = 0 the empty test comes first. -/
theorem test_empty_before_depth :
    (nextOf (exec (.minN 1#3 0#11) t71State)).map (fun t => t.errcode) = some .malformedLength := by decide

/-! ### The evaluator, one node each -/

/-- T54. -/
theorem test_eval_sum :
    valueOf (opOver 0#3 [9223372036854775806#64, 1#64]).eval = some 9223372036854775807 := by decide

/-- T55. -/
theorem test_eval_sum_overflow :
    faultOf (opOver 0#3 [9223372036854775807#64, 1#64]).eval = .arithmeticOverflow := by decide

/-- T57. -/
theorem test_eval_prod_zero_factor :
    valueOf (opOver 1#3 [4611686018427387904#64, 4#64, 0#64]).eval = some 0 := by decide

/-- T59. -/
theorem test_eval_prod :
    valueOf (opOver 1#3 [3037000499#64, 3037000499#64]).eval = some 9223372030926249001 := by decide

/-- V9. -/
theorem test_eval_min :
    valueOf (opOver 2#3 [7#64, 8#64, 9#64]).eval = some 7 := by decide

/-- V10. -/
theorem test_eval_max :
    valueOf (opOver 3#3 [7#64, 8#64, 9#64]).eval = some 9 := by decide

/-- T64, T65. -/
theorem test_eval_gt :
    valueOf (opOver 5#3 [8#64, 7#64]).eval = some 1 ∧ valueOf (opOver 5#3 [7#64, 8#64]).eval = some 0 := by decide

/-- T66, T67. -/
theorem test_eval_lt :
    valueOf (opOver 6#3 [7#64, 8#64]).eval = some 1 ∧ valueOf (opOver 6#3 [8#64, 7#64]).eval = some 0 := by decide

/-- T68, T69. -/
theorem test_eval_eq :
    valueOf (opOver 7#3 [7#64, 7#64]).eval = some 1 ∧ valueOf (opOver 7#3 [7#64, 8#64]).eval = some 0 := by decide

/-- R191: -1 < 0 on a hand-built packet. -/
theorem test_eval_comparison_is_signed :
    valueOf (opOver 6#3 [18446744073709551615#64, 0#64]).eval = some 1 := by decide

/-- T80, T82. -/
theorem test_eval_arity :
    faultOf (opOver 5#3 [1#64, 2#64, 3#64]).eval = .arityMismatch ∧ faultOf (opOver 7#3 [9#64]).eval = .arityMismatch := by decide

/-- 2.6 of the vectors: hand-built packets. -/
theorem test_eval_unknown_operator :
    faultOf (opOver 4#3 [1#64]).eval = .unknownOperator ∧ faultOf (opOver 0#3 []).eval = .arityMismatch := by decide

/-- T84. -/
theorem test_eval_arity_before_children :
    faultOf (Packet.operator 0#3 5#3 (.cons (opOver 0#3 [9223372036854775807#64, 1#64]) .nil)).eval = .arityMismatch := by decide

/-- T85. -/
theorem test_eval_children_left_to_right :
    faultOf (Packet.operator 0#3 0#3 (.cons (opOver 0#3 [9223372036854775807#64, 1#64]) (.cons (opOver 5#3 [1#64]) .nil))).eval = .arithmeticOverflow := by decide

/-- 2.6 of the vectors: `VSumOf(Packet{3, Operator(4, [])}) = 3`. -/
theorem test_vsum_of_any_operator : (Packet.operator 3#3 4#3 .nil).vsumOf = 3 := by decide

/-- P4's tree. -/
def p4Tree : Packet :=
  .operator 1#3 5#3 (Packets.ofList [.literal 1#3 1#64, .literal 2#3 2#64, .literal 3#3 3#64])

/-- P4 in FOLD_V. -/
def p4FoldV : State := { parsing [0x3, 0x6, 0x0, 0x0, 0xC, 0xC, 0x0, 0xA, 0x8, 0x2, 0x7, 0x0, 0x6] 51#32 [] with phase := .foldV, root := some p4Tree }

/-- P4 in FOLD_E. -/
def p4FoldE : State := { p4FoldV with phase := .foldE, vsum := 7#32, vsumValid := true }

/-- P4 step 6. -/
theorem test_fold_v : nextOf (step p4FoldV) = some p4FoldE := by decide

/-- P4 step 7: the version sum stays valid, and `STATUS` reads 0x40E. -/
theorem test_fold_e_fault :
    (nextOf (step p4FoldE)).map (fun t => (t.status, t.vsum, t.value, t.errpos)) =
      some (0x40E#32, 7#32, 0#64, 0#32) := by decide

/-! ### The unpacker and the host -/

/-- R121's worked example: `"D2"`. -/
theorem test_unpack :
    (nextOf (step (started [0x44#8, 0x32#8]))).map (fun t => (t.phase, t.bits)) =
      some (.parse, [true, true, false, true, false, false, true, false]) := by decide

/-- T17: `"GZ"`, the lowest index; T9's character `G` is one past `F`. -/
theorem test_unpack_invalid :
    (nextOf (step (started [0x47#8, 0x5A#8]))).map (fun t => (t.status, t.errpos, t.bits)) =
      some (0x106#32, 0#32, []) := by decide

/-- T140, T152, T151: reset's status, START by bit 0 only. -/
theorem test_start :
    State.reset.status = 0#32 ∧ (State.reset.writeReg 0 0xFFFFFFFF#32).phase = .unpack ∧
      State.reset.writeReg 0 0xFFFFFFFE#32 = State.reset := by decide

/-- T148, T149: `INLEN` above `MAX_HEX` is dropped, `MAX_HEX` is stored. -/
theorem test_inlen :
    (State.reset.writeReg 2 4097#32).inlen = 0#32 ∧ (State.reset.writeReg 2 4096#32).inlen = 4096#32 := by decide

/-- T150: while BUSY writes are dropped. -/
theorem test_busy_writes_dropped :
    hostMoves [.writeInbuf 0 0x58#8, .writeReg 2 0#32, .writeReg 0 1#32] p2State = p2State := by decide

/-- T154: reset during PARSE. -/
theorem test_reset_in_parse : hostMove .reset p2State = State.reset := by decide

/-- R37: an unwritten cell is the free value. -/
theorem test_unwritten_cell : State.reset.inbufByte 5 = Config.inbufPowerOn 5 := rfl

/-- A write of an earlier cell goes before the later one; overwriting keeps one entry. -/
theorem test_memory_form :
    Memory.write 1 7#8 (Memory.write 3 8#8 (Memory.write 1 9#8 [])) = [(1, 7#8), (3, 8#8)] := by decide

/-! ### The recursive contract -/

/-- V1 through the recursive parse. -/
theorem test_contract_literal :
    parsePacket 256 (hexBits [0xD, 0x2, 0xF, 0xE, 0x2, 0x8]) 2 0 0 = .ok 21 (.literal 6#3 2021#64) := by decide

/-- T103 through the recursive parse: the overshoot is the operator's. -/
theorem test_contract_overshoot :
    parsePacket 256 (hexBits [0x2, 0x0, 0x0, 0x0, 0x3, 0x0, 0xC, 0x0, 0xA, 0x8, 0x2]) 6 0 0 =
      .fault .malformedLength 0 := by decide

/-! ### Witnesses: states and operands that meet the hypotheses of each statement, each clause at a boundary -/

/-- With turns to come. -/
def withT (s : State) (ts : List Turn) : State := { s with turns := ts }

/-- The end state of P1 (V12's root over P4's digits is not needed: only the fields matter here). -/
def doneState : State :=
  { parsing [0x1, 0x0, 0x0] 11#32 [] with
    phase := .done, root := some (.literal 0#3 0#64), vsumValid := true, valueValid := true }

/-- A root whose evaluation succeeds, in FOLD_E (T20). -/
def foldEOk : State := { doneState with phase := .foldE, valueValid := false }

/-- A message that ended in a parse fault (T112). -/
def errState : State := { parsing [0x0, 0x0] 0#32 [] with phase := .err, errcode := .unexpectedEndOfBits }

/-- V1 before its first PARSE step. -/
def v1State : State := parsing [0xD, 0x2, 0xF, 0xE, 0x2, 0x8] 0#32 []

/-- `MAX_DEPTH` = 4 over three frames: one below the limit. -/
def depth3of4 : State := { t71State with params := { maxHex := 4096, maxDepth := 4, hexCase := .both } }

/-- P3 before its step 3: the region is one bit longer than the literal. -/
def p3Step3 : State :=
  parsing [0x2, 0x0, 0x0, 0x0, 0x3, 0x0, 0xC, 0x0, 0xA, 0x8, 0x2] 22#32 [{ p3Frame with subs := [] }]

/-- A count frame with two sub-packets to come. -/
def countTwo : State :=
  parsing [0xC, 0x2, 0x0, 0x0, 0xB, 0x4, 0x0, 0xA, 0x8, 0x2] 18#32
    [{ ver := 6#3, typeId := 0#3, extent := .count 2#11, start := 0#32, subs := [] }]

theorem inv_started : (started [0x44#8, 0x32#8]).Inv where
  params := by decide
  inbufForm := by decide
  inbufRange := by decide
  inlenRange := by decide
  bitsRange := by decide
  curRange := by decide
  depthRange := by decide
  frames := by simp [started, hostMoves, hostMove, messageMoves, loadMoves, State.writeReg, State.start, State.writeInlen, State.writeInbuf, State.reset, Phase.busy, Config.defaults]
  topOpen := by simp [started, hostMoves, hostMove, messageMoves, loadMoves, State.writeReg, State.start, State.writeInlen, State.writeInbuf, State.reset, Phase.busy, Config.defaults]
  heights := ⟨trivial, by simp [started, hostMoves, hostMove, messageMoves, loadMoves, State.writeReg, State.start, State.writeInlen, State.writeInbuf, State.reset, Phase.busy, Config.defaults]⟩
  rootLegal := by simp [started, hostMoves, hostMove, messageMoves, loadMoves, State.writeReg, State.start, State.writeInlen, State.writeInbuf, State.reset, Phase.busy, Config.defaults]
  size := by decide
  phase := ⟨⟨rfl, rfl, rfl, rfl, rfl, rfl⟩, rfl, rfl, rfl, rfl⟩

theorem inv_p3State : p3State.Inv where
  params := by decide
  inbufForm := by decide
  inbufRange := by decide
  inlenRange := by decide
  bitsRange := by decide
  curRange := by decide
  depthRange := by decide
  frames := by simp [p3State, parsing, p3Frame, Frame.legal, Packet.legal]
  topOpen := by intro f stop h e; cases h; cases e; decide
  heights := by simp [p3State, parsing, p3Frame, framesHeight, Packet.height, State.reset, Config.defaults]
  rootLegal := by simp [p3State, parsing, State.reset]
  size := by decide
  phase := ⟨⟨rfl, rfl, rfl, rfl, rfl, rfl⟩, rfl, rfl⟩

theorem inv_v1State : v1State.Inv where
  params := by decide
  inbufForm := by decide
  inbufRange := by decide
  inlenRange := by decide
  bitsRange := by decide
  curRange := by decide
  depthRange := by decide
  frames := by simp [v1State, parsing]
  topOpen := by simp [v1State, parsing]
  heights := by simp [v1State, parsing, framesHeight, State.reset]
  rootLegal := by simp [v1State, parsing, State.reset]
  size := by decide
  phase := ⟨⟨rfl, rfl, rfl, rfl, rfl, rfl⟩, rfl, rfl⟩

/-- The message of no characters in `PARSE`. -/
def emptyState : State := parsing [] 0#32 []

theorem inv_emptyState : emptyState.Inv where
  params := by decide
  inbufForm := by decide
  inbufRange := by decide
  inlenRange := by decide
  bitsRange := by decide
  curRange := by decide
  depthRange := by decide
  frames := by simp [emptyState, parsing]
  topOpen := by simp [emptyState, parsing]
  heights := by simp [emptyState, parsing, framesHeight, State.reset]
  rootLegal := by simp [emptyState, parsing, State.reset]
  size := by decide
  phase := ⟨⟨rfl, rfl, rfl, rfl, rfl, rfl⟩, rfl, rfl⟩

theorem inv_p4FoldV : p4FoldV.Inv where
  params := by decide
  inbufForm := by decide
  inbufRange := by decide
  inlenRange := by decide
  bitsRange := by decide
  curRange := by decide
  depthRange := by decide
  frames := by simp [p4FoldV, parsing]
  topOpen := by simp [p4FoldV, parsing]
  heights := ⟨trivial, by intro p h; cases h; decide⟩
  rootLegal := by intro p h; cases h; decide
  size := by decide
  phase := ⟨⟨rfl, rfl, rfl, rfl, rfl, rfl⟩, rfl, rfl, ⟨_, rfl⟩⟩

theorem inv_doneState : doneState.Inv where
  params := by decide
  inbufForm := by decide
  inbufRange := by decide
  inlenRange := by decide
  bitsRange := by decide
  curRange := by decide
  depthRange := by decide
  frames := by simp [doneState, parsing]
  topOpen := by simp [doneState, parsing]
  heights := ⟨trivial, by intro p h; cases h; decide⟩
  rootLegal := by intro p h; cases h; decide
  size := by decide
  phase := ⟨rfl, rfl, rfl, rfl, rfl, ⟨_, rfl, by decide, rfl⟩⟩

theorem witness_ResetMoveFromAnyPhase :
    (withT p2State [.host .reset]).turns = .host .reset :: [] ∧ p2State.phase.busy = true := by decide

theorem witness_StartBeginsACleanMessage :
    (1#32).getLsbD 0 = true ∧ (withT State.reset [.host (.writeReg 0 1#32)]).turns = .host (.writeReg 0 1#32) :: [] ∧
      State.reset.phase = .idle ∧ doneState.phase = .done ∧ errState.phase = .err ∧ p2State.phase.busy = true := by decide

theorem witness_DroppedWritesAndPureReads :
    (withT p2State [.host (.writeInbuf 0 0x58#8)]).turns = .host (.writeInbuf 0 0x58#8) :: [] ∧
      (withT p2State [.host (.writeReg 2 0#32)]).turns = .host (.writeReg 2 0#32) :: [] ∧ p2State.phase.busy = true ∧
      (withT doneState [.host (.writeReg 1 0#32)]).turns = .host (.writeReg 1 0#32) :: [] ∧ (1 ≠ 0 ∧ 1 ≠ 2) ∧
      (withT doneState [.host (.writeReg 0 0xFFFFFFFE#32)]).turns = .host (.writeReg 0 0xFFFFFFFE#32) :: [] ∧
      (0xFFFFFFFE#32).getLsbD 0 = false ∧
      (withT p2State [.host (.readReg 5)]).turns = .host (.readReg 5) :: [] := by decide

theorem witness_InbufHostAccess :
    (withT State.reset [.host (.writeInbuf 4095 1#8)]).turns = .host (.writeInbuf 4095 1#8) :: [] ∧
      State.reset.phase.busy = false ∧ 4095 < State.reset.params.maxHex ∧ State.reset.params.maxHex ≤ 4096 ∧
      (withT State.reset [.host (.writeInbuf 4096 1#8)]).turns = .host (.writeInbuf 4096 1#8) :: [] ∧
      p2State.phase.busy = true ∧
      (withT p2State [.host (.readInbuf 4095)]).turns = .host (.readInbuf 4095) :: [] ∧
      (withT p2State [.host (.readInbuf 4096)]).turns = .host (.readInbuf 4096) :: [] ∧
      p2State.turns = [] ∧ (nextOf (step p2State)).isSome ∧ (nextOf (step (withT p2State [.decoder]))).isSome := by decide

theorem witness_InlenWriteAnyReadLegal :
    (withT State.reset [.host (.writeReg 2 4096#32)]).turns = .host (.writeReg 2 4096#32) :: [] ∧
      State.reset.phase.busy = false ∧ (4096#32).toNat ≤ State.reset.params.maxHex ∧
      (withT State.reset [.host (.writeReg 2 4097#32)]).turns = .host (.writeReg 2 4097#32) :: [] ∧
      State.reset.params.maxHex < (4097#32).toNat ∧ p2State.phase.busy = true ∧
      p2State.turns = [] ∧ (nextOf (step p2State)).isSome := by decide

/-- A message that fills the buffer. -/
theorem witness_HostLoadsAndStartsAMessage :
    let s := { loading [0x44#8, 0x32#8] with params := { maxHex := 2, maxDepth := 1, hexCase := .both } }
    s.phase.busy = false ∧ [0x44#8, 0x32#8].length ≤ s.params.maxHex ∧ s.params.legal ∧
      s.turns = (messageMoves [0x44#8, 0x32#8]).map .host := by decide

theorem witness_DecoderTurnIsTheDecoderStep : (withT p2State [.decoder]).turns = .decoder :: [] := by decide

theorem witness_IdleDecoderWaits :
    State.reset.phase.busy = false ∧ State.reset.turns = [] ∧ doneState.phase.busy = false ∧ doneState.turns = [] ∧
      errState.phase.busy = false ∧ errState.turns = [] := by decide

theorem witness_HexDigitValues :
    (0x30 ≤ (0x30#8).toNat ∧ (0x39#8).toNat ≤ 0x39) ∧ (0x41 ≤ (0x41#8).toNat ∧ (0x46#8).toNat ≤ 0x46) ∧
      (0x61 ≤ (0x61#8).toNat ∧ (0x66#8).toNat ≤ 0x66) ∧ (0x2F#8).toNat < 0x30 ∧
      (0x39 < (0x3A#8).toNat ∧ (0x40#8).toNat < 0x41) ∧ (0x46 < (0x47#8).toNat ∧ (0x60#8).toNat < 0x61) ∧
      0x66 < (0x67#8).toNat := by decide

theorem witness_UpperOnlyDiffersOnLowerCase :
    (0x61 ≤ (0x61#8).toNat ∧ (0x66#8).toNat ≤ 0x66) ∧ (0x60#8).toNat < 0x61 ∧ 0x66 < (0x67#8).toNat := by decide

theorem witness_UnpackGivesFourBitsPerCharacter :
    let s := started [0x44#8, 0x32#8]
    s.phase = .unpack ∧ s.turns = [] ∧
      (∀ i, i < s.inlen.toNat → hexVal s.params.hexCase (s.inbufByte i) ≠ none) ∧
      1 < s.inlen.toNat ∧ hexVal s.params.hexCase (s.inbufByte 1) = some 2#4 ∧ 3 < 4 := by decide

/-- The last character is the invalid one; and a cell written at index `INLEN`. -/
theorem witness_UnpackFaultsAtTheLeastInvalidIndex :
    (let s := started [0x44#8, 0x47#8]
     s.phase = .unpack ∧ s.turns = [] ∧ 1 < s.inlen.toNat ∧ hexVal s.params.hexCase (s.inbufByte 1) = none ∧
       (∀ j, j < 1 → hexVal s.params.hexCase (s.inbufByte j) ≠ none)) ∧
    (let s := started [0x44#8, 0x32#8]
     let m := Memory.write 2 0x0A#8 s.inbuf
     s.phase = .unpack ∧ s.turns = [] ∧
       (∀ i, i < s.inlen.toNat → { s with inbuf := m }.inbufByte i = s.inbufByte i) ∧ (nextOf (step s)).isSome) := by
  decide

theorem witness_DecodeUndoesEncode :
    Instr.encodable (.lit 0#3 [0#4]) = true ∧ Instr.encodable (.sumL 0#3 0#15) = true ∧
      Instr.encodable (.eqN 7#3 2047#11) = true := by decide

theorem witness_DecodedBitsAreTheEncoding :
    decode (bitsOf 11 0b11010001111 ++ [true]) = .instr (.lit 6#3 [15#4]) [true] := by decide

theorem witness_TableDecodesEveryHead :
    decode (bitsOf 22 0b1111110111111111111111) = .instr (.eqL 7#3 32767#15) [] := by decide

theorem witness_StepRunsTheDecodedInstruction :
    p2State.phase = .parse ∧ decode (p2State.bits.drop p2State.cur.toNat) = .instr (.lit 4#3 [5#4]) [false, false, false] ∧
      p2State.turns = [] ∧ (withT p2State [.decoder]).turns = .decoder :: [] := by decide

/-- 5 bits left; 6 bits and no flag; `L` one bit short; `N` one bit short. -/
theorem witness_ShortHeadFaults :
    let s1 := parsing [0x0, 0x0] 3#32 []
    let s2 := parsing [0x0, 0x0] 2#32 []
    let s3 := parsing [0x0, 0x0, 0x0, 0x0, 0x0, 0x0] 3#32 []
    let s4 := parsing [0x0, 0x0, 0x4, 0x0, 0x0] 3#32 []
    s1.phase = .parse ∧ s1.turns = [] ∧ (s1.bits.drop s1.cur.toNat).length = 5 ∧
      s2.bits.drop s2.cur.toNat = bitsOf 3 (0#3).toNat ++ bitsOf 3 OpKind.sum.typeId.toNat ++ [] ∧
      s3.bits.drop s3.cur.toNat = bitsOf 3 (0#3).toNat ++ bitsOf 3 OpKind.sum.typeId.toNat ++ List.replicate 15 false ∧
      s4.bits.drop s4.cur.toNat =
        bitsOf 3 (0#3).toNat ++ bitsOf 3 OpKind.sum.typeId.toNat ++ (true :: List.replicate 10 false) := by decide

/-- T6, four bits of a group left; T32 and T31, the two sides of the range. -/
theorem witness_CutLiteralFaults :
    let s := parsing [0xD, 0x2, 0xF, 0xE, 0x2] 0#32 []
    let s' := parsing [0x1, 0x3, 0x1, 0x0, 0x8, 0x4, 0x2, 0x1, 0x0, 0x8, 0x4, 0x2, 0x1, 0x0, 0x8, 0x4, 0x2, 0x1, 0x0, 0x8, 0x4, 0x2] 0#32 []
    s.phase = .parse ∧ s.turns = [] ∧
      s.bits.drop s.cur.toNat =
        bitsOf 3 (6#3).toNat ++ bitsOf 3 4 ++ [7#4, 14#4].flatMap (fun g => true :: bitsOf 4 g.toNat) ++
          [false, false, true, false] ∧
      groupsNumber [7#4, 14#4] < 2 ^ 63 ∧ s'.phase = .parse ∧ s'.turns = [] ∧
      s'.bits.drop s'.cur.toNat =
        bitsOf 3 (0#3).toNat ++ bitsOf 3 4 ++
          (8#4 :: List.replicate 15 0#4).flatMap (fun g => true :: bitsOf 4 g.toNat) ++ [true, false] ∧
      2 ^ 63 ≤ groupsNumber (8#4 :: List.replicate 15 0#4) := by decide

theorem witness_ParseStepMovesTheCursorByTheHead :
    (p3State.Inv ∧ p3State.phase = .parse ∧ p3State.turns = [] ∧ ∃ t, step p3State = .next t ∧ t.phase = .err) ∧
      (v1State.Inv ∧ v1State.phase = .parse ∧ v1State.turns = [] ∧ ∃ t, step v1State = .next t ∧ t.phase ≠ .err) :=
  ⟨⟨inv_p3State, rfl, rfl, _, rfl, rfl⟩, ⟨inv_v1State, rfl, rfl, _, rfl, by decide⟩⟩

theorem witness_TrailingBitsDoNotMatter :
    (∃ t, step p2State = .next t ∧ t.phase ≠ .err) ∧ (∃ t, step p4FoldV = .next t ∧ t.phase ≠ .err) ∧
      (∃ t, step foldEOk = .next t ∧ t.phase ≠ .err) ∧
      (p2State.phase = .parse ∧ p4FoldV.phase = .foldV ∧ foldEOk.phase = .foldE) ∧
      (p2State.turns = [] ∧ p4FoldV.turns = [] ∧ foldEOk.turns = []) :=
  ⟨⟨_, rfl, by decide⟩, ⟨_, rfl, by decide⟩, ⟨_, rfl, by decide⟩, by decide, by decide⟩

theorem witness_BitsAreReadOnlyAfterUnpack :
    (∃ t, step (started [0x44#8, 0x32#8]) = .next t ∧ t.bits ≠ (started [0x44#8, 0x32#8]).bits) ∧
      (∃ t, step (withT doneState [.host (.writeReg 0 1#32)]) = .next t ∧ t.bits ≠ doneState.bits) ∧
      (∃ t, step (withT p2State [.host .reset]) = .next t ∧ t.bits ≠ p2State.bits) :=
  ⟨⟨_, rfl, by decide⟩, ⟨_, rfl, by decide⟩, ⟨_, rfl, by decide⟩⟩

theorem witness_AggregateTotalHeadsPushAFrame :
    (1#15 ≠ 0#15 ∧ 32767#15 ≠ 0#15) ∧ depth3of4.depth < depth3of4.params.maxDepth := by decide

theorem witness_AggregateCountHeadsPushAFrame :
    (1#11 ≠ 0#11 ∧ 2047#11 ≠ 0#11) ∧ depth3of4.depth < depth3of4.params.maxDepth := by decide

theorem witness_ComparisonTotalHeadsPushAFrame :
    (1#15 ≠ 0#15 ∧ 32767#15 ≠ 0#15) ∧ depth3of4.depth < depth3of4.params.maxDepth := by decide

theorem witness_ComparisonCountHeadsPushAFrame :
    (1#11 ≠ 0#11 ∧ 2047#11 ≠ 0#11) ∧ depth3of4.depth < depth3of4.params.maxDepth := by decide

theorem witness_EmptyOperatorsFaultAtTheHead :
    (Instr.maxL 1#3 0#15).form = .total .max 1#3 0#15 ∧ (Instr.gtN 1#3 0#11).form = .counted .gt 1#3 0#11 := by decide

theorem witness_DepthGuardCountsOperators :
    (1#15 ≠ 0#15 ∧ (Instr.sumL 1#3 1#15).form = .total .sum 1#3 1#15) ∧
      (1#11 ≠ 0#11 ∧ (Instr.eqN 1#3 1#11).form = .counted .eq 1#3 1#11) ∧
      t71State.params.maxDepth ≤ t71State.depth ∧ depth3of4.depth < depth3of4.params.maxDepth := by decide

/-- No frame; three frames that close. -/
theorem witness_LiteralThatEndsTheParse :
    groupsNumber [5#4] < 2 ^ 63 ∧ v1State.stack = [] ∧
      ∀ f ∈ p2State.stack,
        f.extent = .region (p2State.cur + BitVec.ofNat 32 (6 + 5 * [5#4].length)) ∨ f.extent = .count 1#11 := by decide

/-- A region that ends one bit later; a count of 2; P1's step 5, which closes one frame and leaves one open. -/
theorem witness_LiteralThatLeavesAFrameOpen :
    groupsNumber [1#4] < 2 ^ 63 ∧
      p3Step3.stack = [] ++ { p3Frame with subs := [] } :: [] ∧ p3Frame.extent = .region 34#32 ∧
      p3Step3.cur + BitVec.ofNat 32 (6 + 5 * [1#4].length) < 34#32 ∧
      countTwo.stack =
        [] ++ { ver := 6#3, typeId := 0#3, extent := .count 2#11, start := 0#32, subs := [] } :: [] ∧
      1 < (2#11).toNat ∧
      ∀ g ∈ [({ ver := 2#3, typeId := 0#3, extent := .count 1#11, start := 22#32, subs := [] } : Frame)],
        g.extent = .region (51#32 + BitVec.ofNat 32 (6 + 5 * [3#4].length)) ∨ g.extent = .count 1#11 := by decide

theorem witness_LiteralThatOvershootsARegion :
    groupsNumber [2#4] < 2 ^ 63 ∧ p3State.stack = [] ++ p3Frame :: [] ∧ p3Frame.extent = .region 34#32 ∧
      34#32 < p3State.cur + BitVec.ofNat 32 (6 + 5 * [2#4].length) := by decide

theorem witness_LiteralOverflowFaults : 2 ^ 63 ≤ groupsNumber (8#4 :: List.replicate 15 0#4) := by decide

/-- T25, `2^63 - 1`, and T26, `2^63`. -/
theorem witness_LiteralRoundTrip :
    let s := parsing [0x5, 0x2, 0xF, 0xF, 0xF, 0xF, 0xF, 0xF, 0xF, 0xF, 0xF, 0xF, 0xF, 0xF, 0xF, 0xF, 0xF, 0xF, 0xF, 0xF, 0xB, 0xC] 0#32 []
    let s' := parsing [0x5, 0x3, 0x1, 0x0, 0x8, 0x4, 0x2, 0x1, 0x0, 0x8, 0x4, 0x2, 0x1, 0x0, 0x8, 0x4, 0x2, 0x1, 0x0, 0x8, 0x0, 0x0] 0#32 []
    s.phase = .parse ∧ s.turns = [] ∧ s.stack = [] ∧
      s.bits.drop s.cur.toNat = encode (.lit 2#3 (7#4 :: List.replicate 15 15#4)) ++ [false, false] ∧
      groupsNumber (7#4 :: List.replicate 15 15#4) ≤ 2 ^ 63 - 1 ∧
      s'.phase = .parse ∧ s'.turns = [] ∧ s'.stack = [] ∧
      s'.bits.drop s'.cur.toNat = encode (.lit 2#3 (8#4 :: List.replicate 15 0#4)) ++ [false, false] ∧
      2 ^ 63 ≤ groupsNumber (8#4 :: List.replicate 15 0#4) := by decide

theorem witness_InstructionFrame :
    (∃ t, exec (.sumL 1#3 1#15) v1State = .next t) ∧ (∃ t, exec (.lit 6#3 [7#4]) p3State = .next t) :=
  ⟨⟨_, rfl⟩, ⟨_, rfl⟩⟩

theorem witness_FaultsArePrecise :
    (p3State.turns = [] ∧ p3State.phase ≠ .err ∧ ∃ t, step p3State = .next t ∧ t.phase = .err) ∧
      (p4FoldE.turns = [] ∧ p4FoldE.phase ≠ .err ∧ ∃ t, step p4FoldE = .next t ∧ t.phase = .err) ∧
      errState.turns = [] ∧ errState.phase = .err :=
  ⟨⟨rfl, by decide, _, rfl, rfl⟩, ⟨rfl, by decide, _, rfl, rfl⟩, rfl, rfl⟩

theorem witness_FoldVStepDeliversTheVersionSum :
    p4FoldV.phase = .foldV ∧ p4FoldV.turns = [] ∧ p4FoldV.root = some p4Tree ∧ p4FoldV.Inv :=
  ⟨rfl, rfl, rfl, inv_p4FoldV⟩

theorem witness_FoldEStepDeliversTheValue :
    (foldEOk.phase = .foldE ∧ foldEOk.turns = [] ∧ foldEOk.root = some (.literal 0#3 0#64) ∧
        (Packet.literal 0#3 0#64).eval = .ok 0) ∧
      (p4FoldE.phase = .foldE ∧ p4FoldE.turns = [] ∧ p4FoldE.root = some p4Tree ∧
        p4Tree.eval = .error .arityMismatch) :=
  ⟨⟨rfl, rfl, rfl, rfl⟩, ⟨rfl, rfl, rfl, rfl⟩⟩

theorem witness_EvalOfLiteralsAndAggregates :
    ([9223372036854775807, 1] : List Int) ≠ [] ∧
      [Packet.literal 0#3 9223372036854775807#64, .literal 0#3 1#64].map Packet.eval =
        ([9223372036854775807, 1] : List Int).map Except.ok :=
  ⟨by decide, rfl⟩

theorem witness_EvalOfComparisons :
    (Packet.literal 0#3 7#64).eval = .ok 7 ∧ (Packet.literal 0#3 8#64).eval = .ok 8 := ⟨rfl, rfl⟩

theorem witness_EvalTestsArityFirst :
    (5#3 ∈ [5#3, 6#3, 7#3] ∧ [Packet.literal 0#3 7#64].length ≠ 2) ∧
      (0#3 ∈ [0#3, 1#3, 2#3, 3#3] ∧ ([] : List Packet) = []) := by decide

/-- T85 and T86's children in a `SUM`, and a faulting second operand of a `GT`. -/
theorem witness_EvalPropagatesTheFirstFault :
    (0#3 ∈ [0#3, 1#3, 2#3, 3#3] ∧
        ([] : List Packet).map Packet.eval = ([] : List Int).map Except.ok ∧
        (opOver 0#3 [9223372036854775807#64, 1#64]).eval = .error .arithmeticOverflow) ∧
      (5#3 ∈ [5#3, 6#3, 7#3] ∧ ([Packet.literal 0#3 1#64] ++ opOver 5#3 [1#64] :: []).length = 2 ∧
        [Packet.literal 0#3 1#64].map Packet.eval = ([1] : List Int).map Except.ok ∧
        (opOver 5#3 [1#64]).eval = .error .arityMismatch) :=
  ⟨⟨by decide, rfl, rfl⟩, ⟨by decide, by decide, rfl, rfl⟩⟩

theorem witness_UnknownOperatorIsUnreachable :
    4#3 ∉ [0#3, 1#3, 2#3, 3#3, 5#3, 6#3, 7#3] ∧ p4FoldV.Inv ∧ ∃ t, step p4FoldV = .next t :=
  ⟨by decide, inv_p4FoldV, _, rfl⟩

/-- The ends of the range. -/
theorem witness_EvalIsInRange :
    (Packet.literal 0#3 9223372036854775807#64).eval = .ok 9223372036854775807 ∧
      (Packet.literal 0#3 9223372036854775808#64).eval = .ok (-9223372036854775808) := ⟨rfl, rfl⟩

theorem witness_ParsedTreesAreNonNegative :
    ((Packet.literal 0#3 9223372036854775807#64).legal = true ∧
        (Packet.literal 0#3 9223372036854775807#64).eval = .ok 9223372036854775807) ∧
      doneState.Inv ∧ doneState.valueValid = true :=
  ⟨⟨rfl, rfl⟩, inv_doneState, rfl⟩

theorem witness_AggregateOrderIsIrrelevant :
    OpKind.prod ∈ [OpKind.sum, .prod, .min, .max] ∧
      ([4611686018427387904, 4, 0] : List Int).Perm [0, 4611686018427387904, 4] := by decide

theorem witness_EveryStepKeepsTheInvariant :
    (p3State.Inv ∧ ∃ t, step p3State = .next t) ∧ (p4FoldV.Inv ∧ ∃ t, step p4FoldV = .next t) ∧
      (doneState.Inv ∧ ∃ t, step doneState = .next t) :=
  ⟨⟨inv_p3State, _, rfl⟩, ⟨inv_p4FoldV, _, rfl⟩, ⟨inv_doneState, _, rfl⟩⟩

theorem witness_NoStepStopsInARun : p3State.Inv ∧ p4FoldV.Inv := ⟨inv_p3State, inv_p4FoldV⟩

theorem witness_StatusFieldsAgree :
    (doneState.flagsAgree ∧ ∃ t, step doneState = .next t) ∧ (p4FoldE.flagsAgree ∧ ∃ t, step p4FoldE = .next t) :=
  ⟨⟨by unfold State.flagsAgree; decide, _, rfl⟩, ⟨by unfold State.flagsAgree; decide, _, rfl⟩⟩

theorem witness_EveryMessageEnds :
    (started [0x44#8, 0x32#8]).Inv ∧ (started [0x44#8, 0x32#8]).phase = .unpack ∧
      (started [0x44#8, 0x32#8]).turns = [] := ⟨inv_started, rfl, rfl⟩

theorem witness_StackMachineAgreesWithRecursiveParse :
    (v1State.Inv ∧ v1State.phase = .parse ∧ v1State.turns = [] ∧ v1State.cur = 0#32 ∧ v1State.stack = [] ∧
        ∃ n p, parseMessage v1State.params.maxDepth v1State.bits = .ok n p) ∧
      (emptyState.Inv ∧ emptyState.phase = .parse ∧ emptyState.turns = [] ∧ emptyState.cur = 0#32 ∧
        emptyState.stack = [] ∧
        parseMessage emptyState.params.maxDepth emptyState.bits = .fault .unexpectedEndOfBits 0) :=
  ⟨⟨inv_v1State, rfl, rfl, rfl, rfl, _, _, rfl⟩, ⟨inv_emptyState, rfl, rfl, rfl, rfl, rfl⟩⟩

theorem witness_MessageRunMeetsTheSourceContract :
    (started [0x44#8, 0x32#8]).Inv ∧ (started [0x44#8, 0x32#8]).phase = .unpack ∧
      (started [0x44#8, 0x32#8]).turns = [] := ⟨inv_started, rfl, rfl⟩

/-- Two blocks that differ in the cell at `INLEN` and in what they did before. -/
theorem witness_TheMessageAloneDeterminesTheRun :
    let s := { started [0x44#8, 0x32#8] with phase := .done }
    let s' := { s with inbuf := Memory.write 2 0x0A#8 s.inbuf, phase := .err, hostData := 7#64 }
    s.phase.busy = false ∧ s'.phase.busy = false ∧ s.turns = [] ∧ s'.turns = [] ∧ s.params = s'.params ∧
      s.inlen = s'.inlen ∧ (∀ i, i < s.inlen.toNat → s.inbufByte i = s'.inbufByte i) ∧
      (nextOf (Host.Core.run core 1 s.start)).isSome := by decide

end Sys2Proof.Tests
end

section
/-! SUPPORT. What the decoder answers: an accepted head is the encoding of its instruction, so the head's length is
`Instr.headBits` (R26, R96). -/

namespace Sys2Proof

/-- The 6 header bits are the version's bits and then the type id's (R91). -/
theorem bitsOf_header (h : BitVec 6) :
    bitsOf 6 h.toNat = bitsOf 3 (h.extractLsb' 3 3).toNat ++ bitsOf 3 (h.extractLsb' 0 3).toNat := by
  revert h; decide

/-- The type id of the operation a type id stands for (R99). -/
theorem OpKind.typeId_of_ofTypeId {t : TypeId} {k : OpKind} (h : OpKind.ofTypeId t = some k) : k.typeId = t := by
  revert t k; decide

/-- Only type id 4 is no operation's (R99, R102). -/
theorem OpKind.ofTypeId_eq_none {t : TypeId} (h : OpKind.ofTypeId t = none) : t = 4#3 := by
  revert t; decide

theorem OpKind.typeId_ne_four (k : OpKind) : k.typeId ≠ 4#3 := by
  cases k <;> decide

@[simp] theorem Instr.form_ofTotal (k : OpKind) (v : Version) (l : Length) :
    (Instr.ofTotal k v l).form = .total k v l := by
  cases k <;> rfl

@[simp] theorem Instr.form_ofCount (k : OpKind) (v : Version) (n : Count) :
    (Instr.ofCount k v n).form = .counted k v n := by
  cases k <;> rfl

@[simp] theorem Instr.encodable_ofTotal (k : OpKind) (v : Version) (l : Length) :
    (Instr.ofTotal k v l).encodable = true := by
  cases k <;> rfl

@[simp] theorem Instr.encodable_ofCount (k : OpKind) (v : Version) (n : Count) :
    (Instr.ofCount k v n).encodable = true := by
  cases k <;> rfl

/-- The bits of the nibble that four bits spell, in `simp`'s form of the nibble. -/
theorem bitsOf_nibble (n3 n2 n1 n0 : Bool) :
    bitsOf 4 (bitsValue [n3, n2, n1, n0] % 16) = [n3, n2, n1, n0] := by
  revert n3 n2 n1 n0; decide

/-- A complete group string is not empty, and its encoding is what was read (R93). -/
theorem readGroups_eq_complete {bs rest : List Bool} {gs : List Nibble} (h : readGroups bs = .complete gs rest) :
    gs ≠ [] ∧ bs = encodeGroups gs ++ rest := by
  induction bs using readGroups.induct generalizing gs with
  | case1 n3 n2 n1 n0 tail ih =>
    cases hr : readGroups tail with
    | cut gs' => simp [readGroups, hr, Groups.push] at h
    | complete gs' rest' =>
      simp only [readGroups, hr, Groups.push, if_true, Groups.complete.injEq] at h
      obtain ⟨rfl, rfl⟩ := h
      obtain ⟨hne, rfl⟩ := ih hr
      simp [encodeGroups_cons, bitsOf_nibble, hne]
  | case2 c n3 n2 n1 n0 tail hc =>
    rw [readGroups, if_neg hc] at h
    cases h
    simp [encodeGroups, bitsOf_nibble, hc]
  | case3 bs hbs => simp [readGroups] at h

/-- Everything that makes `decodeOperator` answer an instruction (R160 to R162). -/
theorem decodeOperator_eq_instr {k : OpKind} {v : Version} {bs rest : List Bool} {i : Instr}
    (h : decodeOperator k v bs = .instr i rest) :
    (∃ l : Length, i = .ofTotal k v l ∧ bs = [false] ++ bitsOf 15 l.toNat ++ rest) ∨
    (∃ n : Count, i = .ofCount k v n ∧ bs = [true] ++ bitsOf 11 n.toNat ++ rest) := by
  unfold decodeOperator at h
  split at h
  · cases h
  · rename_i flag tail hflag
    have hbs := readField_eq_some hflag
    split at h
    · rename_i h0
      split at h
      · cases h
      · rename_i l rest' hl
        cases h
        exact .inl ⟨l, rfl, by rw [hbs, h0, readField_eq_some hl]; rfl⟩
    · rename_i h0
      split at h
      · cases h
      · rename_i n rest' hn
        cases h
        have h1 : flag = 1#1 := by bv_omega
        exact .inr ⟨n, rfl, by rw [hbs, h1, readField_eq_some hn]; rfl⟩

/-- The bits that `decode` accepts are the encoding of the instruction it answers (R90 to R95). -/
theorem decode_eq_instr {bs rest : List Bool} {i : Instr} (h : decode bs = .instr i rest) :
    i.encodable = true ∧ bs = encode i ++ rest := by
  unfold decode at h
  split at h
  · cases h
  · rename_i hd tail hread
    have hbs := readField_eq_some hread
    rw [bitsOf_header] at hbs
    split at h
    · rename_i hk
      rw [OpKind.ofTypeId_eq_none hk] at hbs
      unfold decodeLiteral at h
      split at h
      · rename_i gs rest' hg
        cases h
        obtain ⟨hne, rfl⟩ := readGroups_eq_complete hg
        exact ⟨by simpa [Instr.encodable] using hne, by simpa [encode, Instr.form] using hbs⟩
      · cases h
    · rename_i k hk
      rw [← OpKind.typeId_of_ofTypeId hk] at hbs
      obtain ⟨l, rfl, rfl⟩ | ⟨n, rfl, rfl⟩ := decodeOperator_eq_instr h
      · exact ⟨by simp, by simpa [encode] using hbs⟩
      · exact ⟨by simp, by simpa [encode] using hbs⟩

/-- The length of an encoding is the length of the head (R26, R96). -/
theorem encode_length (i : Instr) : (encode i).length = i.headBits := by
  unfold encode Instr.headBits
  cases i.form with
  | literal v gs => simp; omega
  | total k v l => simp
  | counted k v n => simp

/-- A head is at least 11 bits long (R9, R26). -/
theorem Instr.headBits_ge {i : Instr} (h : i.encodable = true) : 11 ≤ i.headBits := by
  cases i with
  | lit v gs =>
    have : gs.length ≠ 0 := by simpa [Instr.encodable] using h
    simp only [Instr.headBits, Instr.form]
    omega
  | _ => simp [Instr.headBits, Instr.form]

end Sys2Proof
end

section
/-! SUPPORT. Sub-packet lists as the sums and bounds of Safety.lean see them, and what closing a frame builds (R133). -/

namespace Sys2Proof.Machine

@[simp] theorem Packets.allLegal_ofList (ps : List Packet) :
    (Packets.ofList ps).allLegal = true ↔ ∀ p ∈ ps, p.legal = true := by
  induction ps with
  | nil => simp [Packets.ofList, Packets.allLegal]
  | cons p ps ih => simp [Packets.ofList, Packets.allLegal, ih]

@[simp] theorem Packets.nodesAll_ofList (ps : List Packet) :
    (Packets.ofList ps).nodesAll = (ps.map Packet.nodes).sum := by
  induction ps with
  | nil => rfl
  | cons p ps ih => simp [Packets.ofList, Packets.nodesAll, ih]

theorem Packets.heightAll_ofList_le {ps : List Packet} {n : Nat} :
    (Packets.ofList ps).heightAll ≤ n ↔ ∀ p ∈ ps, p.height ≤ n := by
  induction ps with
  | nil => simp [Packets.ofList, Packets.heightAll]
  | cons p ps ih => simp [Packets.ofList, Packets.heightAll, ih]

theorem Packets.ofList_append_ne_nil (ps : List Packet) (p : Packet) : Packets.ofList (ps ++ [p]) ≠ .nil := by
  cases ps <;> simp [Packets.ofList]

/-- A delivered packet leaves an open frame legal (R33). -/
theorem Frame.append_legal {cur : Pos} {f : Frame} {p : Packet} (hf : f.legal cur) (hp : p.legal = true) :
    (f.append p).legal cur := by
  obtain ⟨htype, hsubs, hextent⟩ := hf
  refine ⟨htype, fun q hq => ?_, hextent⟩
  rcases List.mem_append.mp hq with hq | hq
  · exact hsubs q hq
  · rwa [List.mem_singleton.mp hq]

/-- One delivery less leaves a count that is not 0 when more than one was left (R133). -/
theorem Frame.countDown_legal {cur : Pos} {f : Frame} {left : Count} (hf : f.legal cur) (he : f.extent = .count left)
    (hleft : 1 < left.toNat) : Frame.legal cur { f with extent := .count (left - 1#11) } := by
  obtain ⟨htype, hsubs, hextent⟩ := hf
  rw [he] at hextent
  exact ⟨htype, hsubs, hextent.1, by bv_omega⟩

/-- A later cursor keeps a frame legal: its head still lies before the cursor (R33). -/
theorem Frame.legal_mono {cur cur' : Pos} {f : Frame} (hf : f.legal cur) (hcur : cur.toNat ≤ cur'.toNat) :
    f.legal cur' := by
  obtain ⟨htype, hsubs, hextent⟩ := hf
  refine ⟨htype, hsubs, ?_⟩
  split at hextent
  · exact ⟨by omega, hextent.2⟩
  · exact ⟨by omega, hextent.2⟩

/-- A closed operator is legal (R134). -/
theorem Frame.close_legal {cur : Pos} {f : Frame} {p : Packet} (hf : f.legal cur) (hp : p.legal = true) :
    (f.append p).close.legal = true := by
  obtain ⟨htype, hsubs, -⟩ := Frame.append_legal hf hp
  have hne := Packets.ofList_append_ne_nil f.subs p
  simpa [Frame.close, Packet.legal, htype, Packets.allLegal_ofList] using ⟨hne, hsubs⟩

/-- Closing an operator makes its deepest sub-packet one deeper (R34). -/
theorem Frame.close_height {f : Frame} {p : Packet} {n limit : Nat} (hsubs : ∀ q ∈ f.subs, q.height + n ≤ limit)
    (hp : p.height + n ≤ limit) : (f.append p).close.height + n ≤ limit + 1 := by
  have hall : (Packets.ofList (f.subs ++ [p])).heightAll ≤ limit - n := by
    rw [Packets.heightAll_ofList_le]
    intro q hq
    rcases List.mem_append.mp hq with hq | hq
    · have := hsubs q hq
      omega
    · rw [List.mem_singleton.mp hq]
      omega
  simp only [Frame.close, Frame.append, Packet.height]
  omega

/-- A closed operator has the packets its frame held and the one delivered last. -/
theorem Frame.close_nodes (f : Frame) (p : Packet) :
    (f.append p).close.nodes = 1 + (Packets.ofList f.subs).nodesAll + p.nodes := by
  simp [Frame.close, Frame.append, Packet.nodes]
  omega

end Sys2Proof.Machine
end

section
/-! SUPPORT. `Deliver` keeps what State.Inv says of the frame stack, and a root it answers is a tree as R34 and R134
want it. -/

namespace Sys2Proof.Machine

/-- What State.Inv asks of the frames with `CUR` at `cur` and `MAX_DEPTH` = `limit`, but for the innermost region. -/
structure StackOk (limit : Nat) (cur : Pos) (stack : List Frame) : Prop where
  depth : stack.length ≤ limit
  frames : ∀ f ∈ stack, f.legal cur
  heights : framesHeight limit stack

/-- The region of the innermost frame is not yet full (R133). -/
def TopOpen (cur : Pos) (stack : List Frame) : Prop :=
  ∀ f stop, stack.head? = some f → f.extent = .region stop → cur.toNat < stop.toNat

/-- What an answer of `Deliver` owes State.Inv: frames or a root tree that it allows, with `total` packets. -/
def Delivered.Ok (limit : Nat) (cur : Pos) (total : Nat) : Delivered → Prop
  | .waiting stack => StackOk limit cur stack ∧ TopOpen cur stack ∧ framesNodes stack = total
  | .root p => p.legal = true ∧ p.height ≤ limit + 1 ∧ p.nodes = total
  | .overshoot _ => True

theorem StackOk.tail {limit : Nat} {cur : Pos} {f : Frame} {rest : List Frame} (h : StackOk limit cur (f :: rest)) :
    StackOk limit cur rest where
  depth := by
    have := h.depth
    simp only [List.length_cons] at this
    omega
  frames := fun g hg => h.frames g (List.mem_cons_of_mem f hg)
  heights := h.heights.2

/-- A frame that holds the same trees may take the innermost one's place. -/
theorem StackOk.replaceTop {limit : Nat} {cur : Pos} {f g : Frame} {rest : List Frame}
    (h : StackOk limit cur (f :: rest)) (hg : g.legal cur) (hsubs : ∀ q ∈ g.subs, q.height + rest.length ≤ limit) :
    StackOk limit cur (g :: rest) where
  depth := h.depth
  frames := List.forall_mem_cons.mpr ⟨hg, h.tail.frames⟩
  heights := ⟨hsubs, h.tail.heights⟩

/-- The innermost frame may take a packet that is not too deep for it. -/
theorem StackOk.appendTop {limit : Nat} {cur : Pos} {f : Frame} {rest : List Frame} {p : Packet}
    (h : StackOk limit cur (f :: rest)) (hp : p.legal = true) (hh : p.height + rest.length ≤ limit) :
    StackOk limit cur (f.append p :: rest) := by
  refine h.replaceTop (Frame.append_legal (h.frames f List.mem_cons_self) hp) fun q hq => ?_
  rcases List.mem_append.mp hq with hq | hq
  · exact h.heights.1 q hq
  · rwa [List.mem_singleton.mp hq]

theorem framesNodes_append (f : Frame) (p : Packet) (rest : List Frame) :
    framesNodes (f.append p :: rest) = framesNodes (f :: rest) + p.nodes := by
  simp [framesNodes, Frame.append]
  omega

/-- `Deliver` of a legal packet to a legal stack (R133): by induction over the frames, a frame that stays open takes the
packet, and one that closes is delivered to the frames outside it. -/
theorem deliverTo_ok {limit : Nat} {cur : Pos} {stack : List Frame} {p : Packet} (hs : StackOk limit cur stack)
    (hp : p.legal = true) (hh : p.height + stack.length ≤ limit + 1) :
    (deliverTo cur stack p).Ok limit cur (framesNodes stack + p.nodes) := by
  induction stack generalizing p with
  | nil => exact ⟨hp, hh, by simp [framesNodes]⟩
  | cons f rest ih =>
    have hf : f.legal cur := hs.frames f List.mem_cons_self
    have hph : p.height + rest.length ≤ limit := by
      simp only [List.length_cons] at hh
      omega
    have happ : StackOk limit cur (f.append p :: rest) := hs.appendTop hp hph
    have hclose : (deliverTo cur rest (f.append p).close).Ok limit cur (framesNodes (f :: rest) + p.nodes) := by
      have := ih hs.tail (Frame.close_legal hf hp) (Frame.close_height hs.heights.1 hph)
      rw [Frame.close_nodes] at this
      convert this using 1
      simp only [framesNodes]
      omega
    unfold deliverTo
    split
    · rename_i stop he
      split
      · trivial
      · split
        · rename_i hlt
          refine ⟨happ, fun g stop' hg hg' => ?_, framesNodes_append f p rest⟩
          obtain rfl : f.append p = g := by simpa using hg
          obtain rfl : stop = stop' := by simpa [Frame.append, he] using hg'
          exact hlt
        · exact hclose
    · rename_i left he
      split
      · rename_i hleft
        refine ⟨happ.replaceTop (Frame.countDown_legal (happ.frames _ List.mem_cons_self) he hleft) happ.heights.1,
          fun g stop' hg hg' => ?_, framesNodes_append f p rest⟩
        obtain rfl : { f.append p with extent := Extent.count (left - 1#11) } = g := by simpa using hg
        cases hg'
      · exact hclose

end Sys2Proof.Machine
end

section
/-! SUPPORT. Bounds of the two folds: the version sum by the number of packets (R9), the value by `Chk64` (R191), and
the code of a fault of `Eval`, which is never that of no fault. -/

namespace Sys2Proof.Machine

mutual

/-- A version is at most 7 (R8), so a tree's version sum is at most 7 a packet (R9). -/
theorem Packet.vsumOf_le : ∀ p : Packet, p.vsumOf ≤ 7 * p.nodes
  | .literal v _ => by
    have := v.isLt
    simp only [Packet.vsumOf, Packet.nodes]
    omega
  | .operator v _ subs => by
    have := v.isLt
    have := Packets.vsumAll_le subs
    simp only [Packet.vsumOf, Packet.nodes]
    omega

theorem Packets.vsumAll_le : ∀ ps : Packets, ps.vsumAll ≤ 7 * ps.nodesAll
  | .nil => by simp [Packets.vsumAll]
  | .cons p ps => by
    have := Packet.vsumOf_le p
    have := Packets.vsumAll_le ps
    simp only [Packets.vsumAll, Packets.nodesAll]
    omega

end

/-- Everything `Chk64` can do (R186). -/
theorem chk64_eq_ok {r v : Int} (h : chk64 r = .ok v) : v = r ∧ -2 ^ 63 ≤ v ∧ v ≤ 2 ^ 63 - 1 := by
  unfold chk64 at h
  split at h
  · cases h
    exact ⟨rfl, by assumption⟩
  · cases h

/-- An operator's result has passed `Chk64` (R187). -/
theorem opResult_range {k : OpKind} {xs : List Int} {v : Int} (h : opResult k xs = .ok v) :
    -2 ^ 63 ≤ v ∧ v ≤ 2 ^ 63 - 1 := by
  unfold opResult at h
  split at h
  · cases h
  · exact (chk64_eq_ok h).2

/-- A value is that of a literal, or an operation's result on the values of its sub-packets (R187). -/
theorem Packet.eval_operator_eq_ok {v : Version} {t : TypeId} {subs : Packets} {x : Int}
    (h : (Packet.operator v t subs).eval = .ok x) :
    ∃ k xs, OpKind.ofTypeId t = some k ∧ subs.evalAll = .ok xs ∧ opResult k xs = .ok x := by
  unfold Packet.eval at h
  split at h
  · cases h
  · rename_i k hk
    split at h
    · split at h
      · cases h
      · rename_i xs hxs
        exact ⟨k, xs, hk, hxs, h⟩
    · cases h

/-- Every value is in the signed 64-bit range (R191). -/
theorem Packet.eval_range {p : Packet} {x : Int} (h : p.eval = .ok x) : -2 ^ 63 ≤ x ∧ x ≤ 2 ^ 63 - 1 := by
  cases p with
  | literal v w =>
    obtain rfl : w.toInt = x := by simpa [Packet.eval] using h
    have hlo := w.le_toInt
    have hhi := w.toInt_lt
    constructor <;> omega
  | operator v t subs =>
    obtain ⟨k, xs, -, -, hres⟩ := Packet.eval_operator_eq_ok h
    exact opResult_range hres

/-- A value in range is what `VALUE` reads as after the FOLD_E step (R188). -/
theorem toInt_ofInt_of_eval {p : Packet} {x : Int} (h : p.eval = .ok x) : (BitVec.ofInt 64 x).toInt = x := by
  obtain ⟨hlo, hhi⟩ := Packet.eval_range h
  rw [BitVec.toInt_ofInt]
  exact Int.bmod_eq_of_le (by omega) (by omega)

theorem combine_ne_none (k : OpKind) (xs : List Int) : combine k xs ≠ .error .none := by
  cases k with
  | sum | prod | min | max => cases xs <;> simp [combine, evalSum, evalProd, evalMin, evalMax]
  | gt | lt | eq =>
    simp only [combine, evalGt, evalLt, evalEq]
    split <;> simp

theorem opResult_ne_none (k : OpKind) (xs : List Int) : opResult k xs ≠ .error .none := by
  unfold opResult
  split
  · rename_i e he
    rintro ⟨⟩
    exact combine_ne_none k xs he
  · unfold chk64
    split <;> simp

mutual

/-- A fault of `Eval` has a code of its own (R221). -/
theorem Packet.eval_ne_none : ∀ p : Packet, p.eval ≠ .error .none
  | .literal _ _ => by simp [Packet.eval]
  | .operator _ _ subs => by
    unfold Packet.eval
    split
    · simp
    · split
      · split
        · rename_i e he
          rintro ⟨⟩
          exact Packets.evalAll_ne_none subs he
        · exact opResult_ne_none _ _
      · simp

theorem Packets.evalAll_ne_none : ∀ ps : Packets, ps.evalAll ≠ .error .none
  | .nil => by simp [Packets.evalAll]
  | .cons p ps => by
    unfold Packets.evalAll
    split
    · rename_i e he
      rintro ⟨⟩
      exact Packet.eval_ne_none p he
    · split
      · rename_i e he
        rintro ⟨⟩
        exact Packets.evalAll_ne_none ps he
      · simp

end

end Sys2Proof.Machine
end

section
/-! SUPPORT. The invariant and the state's operations: what each one needs to keep State.Inv, once. -/

namespace Sys2Proof.Machine

/-! ### Reading the invariant -/

theorem State.Inv.stackOk {s : State} (h : s.Inv) : StackOk s.params.maxDepth s.cur s.stack :=
  ⟨h.depthRange, h.frames, h.heights.1⟩

/-- Positions stay far below `2^32` (R9). -/
theorem State.Inv.bits_le {s : State} (h : s.Inv) : s.bits.length ≤ 2 ^ 30 := by
  obtain ⟨-, hmax, -⟩ := h.params
  have := h.bitsRange.1
  omega

/-- The cursor does not wrap on a head that lies in `BITS` (R26). -/
theorem State.Inv.curAfter_toNat {s : State} (h : s.Inv) {n : Nat} (hn : s.cur.toNat + n ≤ s.bits.length) :
    (s.curAfter n).toNat = s.cur.toNat + n := by
  have := h.bits_le
  simp only [State.curAfter, BitVec.toNat_add, BitVec.toNat_ofNat]
  omega

/-- What PARSE says of the other fields (R27, R28, R30). -/
theorem State.Inv.of_parse {s : State} (h : s.Inv) (hp : s.phase = .parse) :
    s.clean ∧ s.bits.length = 4 * s.inlen.toNat ∧ s.root = none := by
  simpa [State.phaseFacts, hp] using h.phase

theorem Phase.busy_eq_false {p : Phase} : p.busy = false ↔ p = .idle ∨ p = .done ∨ p = .err := by
  cases p <;> simp [Phase.busy]

/-! ### The model's own fields -/

/-- The turns to come are no part of the invariant. -/
theorem State.Inv.withTurns {s : State} (h : s.Inv) (ts : List Turn) : State.Inv { s with turns := ts } :=
  { h with }

/-- Nor is the data of a host read. -/
theorem State.Inv.withHostData {s : State} (h : s.Inv) (d : BitVec 64) : State.Inv { s with hostData := d } :=
  { h with }

/-! ### The host's writes, START and reset -/

theorem State.Inv.writeInbuf {s : State} (h : s.Inv) (i : Nat) (b : Byte) : (s.writeInbuf i b).Inv := by
  unfold State.writeInbuf
  split
  · rename_i hi
    refine { h with inbufForm := Memory.write_wf i b h.inbufForm, inbufRange := fun c hc => ?_ }
    rcases Memory.mem_write hc with rfl | hc
    · exact hi.2
    · exact h.inbufRange c hc
  · exact h

/-- Only PARSE, FOLD_V and FOLD_E tie `NBITS` to `INLEN`, and the write is dropped there (R25). -/
theorem State.Inv.writeInlen {s : State} (h : s.Inv) (v : Pos) : (s.writeInlen v).Inv := by
  unfold State.writeInlen
  split
  · rename_i hv
    refine { h with inlenRange := hv.2, phase := ?_ }
    rcases Phase.busy_eq_false.mp hv.1 with hp | hp | hp <;>
      simpa [State.phaseFacts, State.clean, hp] using h.phase
  · exact h

/-- A block with no message under way meets the invariant as far as its buffer does: the states of START and reset. -/
theorem State.Inv.of_blank {s : State} (hparams : s.params.legal) (hform : Memory.wf s.inbuf = true)
    (hrange : ∀ c ∈ s.inbuf, c.1 < s.params.maxHex) (hlen : s.inlen.toNat ≤ s.params.maxHex)
    (hphase : s.phase = .idle ∨ s.phase = .unpack)
    (hblank : s.clean ∧ s.bits = [] ∧ s.stack = [] ∧ s.root = none ∧ s.cur = 0#32) : s.Inv := by
  have ⟨_, hbits, hstack, hroot, hcur⟩ := hblank
  exact {
    params := hparams, inbufForm := hform, inbufRange := hrange, inlenRange := hlen
    bitsRange := by simp [hbits]
    curRange := by simp [hcur]
    depthRange := by simp [State.depth, hstack]
    frames := by simp [hstack]
    topOpen := by simp [hstack]
    heights := by simp [hstack, hroot, framesHeight]
    rootLegal := by simp [hroot]
    size := by simp [hstack, hroot, framesNodes, rootNodes]
    phase := by rcases hphase with hp | hp <;> simpa [State.phaseFacts, hp] using hblank }

theorem State.Inv.start {s : State} (h : s.Inv) : s.start.Inv := by
  unfold State.start
  split
  · exact h
  · exact .of_blank h.params h.inbufForm h.inbufRange h.inlenRange (.inr rfl) (by simp [State.clean])

theorem State.Inv.resetMove {s : State} (h : s.Inv) : s.resetMove.Inv :=
  .of_blank h.params h.inbufForm h.inbufRange (Nat.zero_le _) (.inl rfl) (by simp [State.clean])

/-- Every host move keeps the invariant (R270). -/
theorem State.Inv.hostMove {s : State} (h : s.Inv) (m : HostMove) : (hostMove m s).Inv := by
  cases m with
  | writeInbuf i b => exact h.writeInbuf i b
  | readInbuf i => exact h.withHostData _
  | readReg n => exact h.withHostData _
  | reset => exact h.resetMove
  | writeReg n d =>
    simp only [Machine.hostMove, State.writeReg]
    split
    · split
      · exact h.start
      · exact h
    · exact h.writeInlen d
    · exact h

/-! ### Faults -/

/-- A fault before the folds keeps the invariant: it has a code of the unpacker or the parser, and there is no result
and no root (R222, R224). -/
theorem State.Inv.takeFault {s : State} (h : s.Inv) (hclean : s.clean) (hroot : s.root = none) {e : ErrCode} (pos : Pos)
    (he : e ∉ [ErrCode.none, .arityMismatch, .unknownOperator]) : (takeFault e pos s).Inv := by
  obtain ⟨-, -, hvv, hvsum, hav, hval⟩ := hclean
  refine { h with phase := ?_ }
  simp only [List.mem_cons, List.not_mem_nil, or_false, not_or] at he
  simp [State.phaseFacts, hvv, hvsum, hav, hval, hroot, he]

/-! ### The frame stack -/

/-- Opening a frame whose head lies in `BITS` (R161, R162). -/
theorem State.Inv.pushFrame {s : State} (h : s.Inv) (hphase : s.phase = .parse) {f : Frame} {n : Nat}
    (hdepth : s.depth < s.params.maxDepth) (hn : 11 ≤ n) (hbits : s.cur.toNat + n ≤ s.bits.length)
    (hf : f.legal (s.curAfter n)) (hsubs : f.subs = [])
    (hopen : ∀ stop, f.extent = .region stop → (s.curAfter n).toNat < stop.toNat) : (pushFrame f n s).Inv := by
  have hcur := h.curAfter_toNat hbits
  obtain ⟨hclean, hlen, hroot⟩ := h.of_parse hphase
  exact { h with
    curRange := by simpa [hcur] using hbits
    depthRange := hdepth
    frames := List.forall_mem_cons.mpr ⟨hf, fun g hg => Frame.legal_mono (h.frames g hg) (by simp [hcur])⟩
    topOpen := by
      rintro g stop hg
      obtain rfl : f = g := by simpa using hg
      exact hopen stop
    heights := ⟨⟨by simp [hsubs], h.heights.1⟩, h.heights.2⟩
    size := by
      have := h.size
      simp only [pushFrame_stack, pushFrame_root, pushFrame_cur, framesNodes, hsubs, hcur, Packets.nodesAll_ofList,
        List.map_nil, List.sum_nil]
      omega
    phase := by simpa [State.phaseFacts, hphase, State.clean, Machine.pushFrame] using ⟨hclean, hlen, hroot⟩ }

/-- What `Deliver` answers for a literal whose head lies in `BITS`. -/
theorem State.Inv.deliverTo_ok {s : State} (h : s.Inv) {n : Nat} (hbits : s.cur.toNat + n ≤ s.bits.length) {v : Version}
    {x : Value} (hx : x.msb = false) :
    (deliverTo (s.curAfter n) s.stack (.literal v x)).Ok s.params.maxDepth (s.curAfter n) (framesNodes s.stack + 1) := by
  have hcur := h.curAfter_toNat hbits
  have hstack : StackOk s.params.maxDepth (s.curAfter n) s.stack :=
    { h.stackOk with frames := fun f hf => Frame.legal_mono (h.frames f hf) (by omega) }
  refine Machine.deliverTo_ok hstack (by simp [Packet.legal, hx]) ?_
  have := hstack.depth
  simp only [Packet.height]
  omega

/-- Delivering a literal whose head lies in `BITS` (R150, R133). -/
theorem State.Inv.deliver {s : State} (h : s.Inv) (hphase : s.phase = .parse) {n : Nat} (hn : 11 ≤ n)
    (hbits : s.cur.toNat + n ≤ s.bits.length) {v : Version} {x : Value} (hx : x.msb = false) :
    (deliver (.literal v x) (s.curAfter n) s).Inv := by
  have hcur := h.curAfter_toNat hbits
  obtain ⟨hclean, hlen, hroot⟩ := h.of_parse hphase
  have hok := h.deliverTo_ok hbits (v := v) hx
  have hsize := h.size
  simp only [hroot, rootNodes, Nat.add_zero] at hsize
  obtain ⟨st, hd, heq⟩ | ⟨r, hd, heq⟩ | ⟨a, hd, heq⟩ := deliver_cases (.literal v x) (s.curAfter n) s
  · rw [hd] at hok
    obtain ⟨hst, htop, hnodes⟩ := hok
    rw [heq]
    exact { h with
      curRange := by simpa [hcur] using hbits
      depthRange := hst.depth
      frames := hst.frames
      topOpen := htop
      heights := ⟨hst.heights, h.heights.2⟩
      size := by
        simp only [hnodes, hroot, hcur, rootNodes]
        omega
      phase := by simpa [State.phaseFacts, hphase, State.clean] using ⟨hclean, hlen, hroot⟩ }
  · rw [hd] at hok
    obtain ⟨hlegal, hheight, hnodes⟩ := hok
    rw [heq]
    exact { h with
      curRange := by simpa [hcur] using hbits
      depthRange := Nat.zero_le _
      frames := by simp
      topOpen := by simp
      heights := ⟨trivial, by simpa using hheight⟩
      rootLegal := by simpa using hlegal
      size := by
        simp only [hnodes, hcur, framesNodes, rootNodes]
        omega
      phase := by simpa [State.phaseFacts, State.clean] using ⟨hclean, hlen⟩ }
  · rw [heq]
    exact h.takeFault hclean hroot a (by simp)

end Sys2Proof.Machine
end

section
/-! SUPPORT. The decoder's four steps keep the invariant: UNPACK, PARSE, FOLD_V and FOLD_E (R22). -/

namespace Sys2Proof.Machine

/-! ### UNPACK -/

/-- Four bits a character (R63). -/
theorem unpackFrom_length {s : State} {n i : Nat} {bs : List Bool} (h : unpackFrom s n i = .bits bs) :
    bs.length = 4 * n := by
  induction n generalizing i bs with
  | zero =>
    obtain rfl : [] = bs := by simpa [unpackFrom] using h
    rfl
  | succ n ih =>
    unfold unpackFrom at h
    split at h
    · cases h
    · split at h
      · cases h
      · rename_i bs' hrest
        cases h
        simp [ih hrest]
        omega

theorem State.Inv.unpackStep {s : State} (h : s.Inv) (hphase : s.phase = .unpack) : (unpackStep s).Inv := by
  obtain ⟨hclean, -, hstack, hroot, hcur⟩ :
      s.clean ∧ s.bits = [] ∧ s.stack = [] ∧ s.root = none ∧ s.cur = 0#32 := by
    simpa [State.phaseFacts, hphase] using h.phase
  unfold Machine.unpackStep
  split
  · exact h.takeFault hclean hroot _ (by simp)
  · rename_i bs hbs
    have hlen := unpackFrom_length hbs
    have hinlen := h.inlenRange
    exact { h with
      bitsRange := by
        dsimp only
        omega
      curRange := by simp [hcur]
      phase := by simpa [State.phaseFacts, State.clean] using ⟨hclean, hlen, hroot⟩ }

/-! ### PARSE -/

/-- The head that PARSE decodes lies in `BITS` and has at least 11 bits (R26, R96). -/
theorem fetch_bounds {s : State} {i : Instr} {rest : List Bool} (hcur : s.cur.toNat ≤ s.bits.length)
    (h : s.fetch = .instr i rest) : 11 ≤ i.headBits ∧ s.cur.toNat + i.headBits ≤ s.bits.length := by
  obtain ⟨henc, hbits⟩ := decode_eq_instr h
  refine ⟨i.headBits_ge henc, ?_⟩
  have hlen := congrArg List.length hbits
  rw [List.length_drop, List.length_append, encode_length] at hlen
  omega

/-- A region ends `22 + L` bits after its operator's start, with no wrap (R97). -/
theorem State.Inv.regionEnd_toNat {s : State} (h : s.Inv) (l : Length) :
    (regionEnd s.cur l).toNat = s.cur.toNat + 22 + l.toNat := by
  have := h.bits_le
  have := h.curRange
  have := l.isLt
  simp only [regionEnd, BitVec.toNat_add, BitVec.toNat_ofNat, BitVec.toNat_setWidth]
  omega

section Parse

variable {s t : State} (h : s.Inv) (hphase : s.phase = .parse)
include h hphase

theorem State.Inv.headL {k : OpKind} {v : Version} {l : Length} (hbits : s.cur.toNat + 22 ≤ s.bits.length)
    (hstep : headL k v l s = .next t) : t.Inv := by
  obtain ⟨hclean, -, hroot⟩ := h.of_parse hphase
  obtain ⟨-, heq⟩ | ⟨-, -, heq⟩ | ⟨hl, hdepth, heq⟩ := headL_cases k v l s <;> cases heq.symm.trans hstep
  · exact h.takeFault hclean hroot _ (by simp)
  · exact h.takeFault hclean hroot _ (by simp)
  · have hcur := h.curAfter_toNat hbits
    have hend := h.regionEnd_toNat l
    have hl0 : 0 < l.toNat := by bv_omega
    have := l.isLt
    refine h.pushFrame hphase hdepth (by omega) hbits
      ⟨k.typeId_ne_four, by simp, ?_⟩ rfl ?_
    · dsimp only
      omega
    · rintro stop ⟨⟩
      omega

theorem State.Inv.headN {k : OpKind} {v : Version} {n : Count} (hbits : s.cur.toNat + 18 ≤ s.bits.length)
    (hstep : headN k v n s = .next t) : t.Inv := by
  obtain ⟨hclean, -, hroot⟩ := h.of_parse hphase
  obtain ⟨-, heq⟩ | ⟨-, -, heq⟩ | ⟨hn, hdepth, heq⟩ := headN_cases k v n s <;> cases heq.symm.trans hstep
  · exact h.takeFault hclean hroot _ (by simp)
  · exact h.takeFault hclean hroot _ (by simp)
  · have hcur := h.curAfter_toNat hbits
    refine h.pushFrame hphase hdepth (by omega) hbits ⟨k.typeId_ne_four, by simp, ?_, hn⟩ rfl ?_
    · dsimp only
      omega
    · rintro stop ⟨⟩

theorem State.Inv.execLit {v : Version} {gs : List Nibble} (hlen : 11 ≤ 6 + 5 * gs.length)
    (hbits : s.cur.toNat + (6 + 5 * gs.length) ≤ s.bits.length) (hstep : execLit v gs s = .next t) : t.Inv := by
  obtain ⟨hclean, -, hroot⟩ := h.of_parse hphase
  obtain ⟨-, heq⟩ | ⟨hlt, heq⟩ := execLit_cases v gs s <;> cases heq.symm.trans hstep
  · exact h.takeFault hclean hroot _ (by simp)
  · refine h.deliver hphase hlen hbits ?_
    rw [BitVec.msb_eq_false_iff_two_mul_lt, BitVec.toNat_ofNat]
    omega

/-- The PARSE step: a head that cannot be decoded faults, and the others run as one of R90's three formats. -/
theorem State.Inv.parseStep (hstep : parseStep s = .next t) : t.Inv := by
  obtain ⟨hclean, -, hroot⟩ := h.of_parse hphase
  unfold Machine.parseStep at hstep
  split at hstep
  · rename_i i rest hfetch
    obtain ⟨hlen, hbits⟩ := fetch_bounds h.curRange hfetch
    rw [exec_eq_form] at hstep
    unfold Instr.headBits at hlen hbits
    cases hform : i.form with
    | literal v gs => rw [hform] at hlen hbits hstep; exact h.execLit hphase hlen hbits hstep
    | total k v l => rw [hform] at hbits hstep; exact h.headL hphase hbits hstep
    | counted k v n => rw [hform] at hbits hstep; exact h.headN hphase hbits hstep
  · rename_i r _
    cases hstep
    cases r with
    | endOfBits => exact h.takeFault hclean hroot _ (by simp)
    | literalOverflow => exact h.takeFault hclean hroot _ (by simp)

end Parse

/-! ### FOLD_V and FOLD_E -/

theorem foldVStep_of_root {s : State} {p : Packet} (hroot : s.root = some p) :
    foldVStep s = .next { s with vsum := BitVec.ofNat 32 p.vsumOf, vsumValid := true, phase := .foldE } := by
  simp only [foldVStep, hroot]

theorem foldEStep_of_eval_ok {s : State} {p : Packet} {x : Int} (hroot : s.root = some p) (hx : p.eval = .ok x) :
    foldEStep s = .next { s with value := BitVec.ofInt 64 x, valueValid := true, phase := .done } := by
  simp only [foldEStep, hroot, hx]

theorem foldEStep_of_eval_error {s : State} {p : Packet} {e : ErrCode} (hroot : s.root = some p)
    (he : p.eval = .error e) : foldEStep s = .next (takeFault e 0#32 s) := by
  simp only [foldEStep, hroot, he]

/-- The version sum of `ROOT` fits `VSUM`: at least 11 bits a packet leave room for 7 a packet (R9, R181). -/
theorem State.Inv.vsum_toNat {s : State} (h : s.Inv) {p : Packet} (hroot : s.root = some p) :
    (BitVec.ofNat 32 p.vsumOf).toNat = p.vsumOf := by
  have := h.bits_le
  have := h.curRange
  have hsize := h.size
  simp only [hroot, rootNodes] at hsize
  have := p.vsumOf_le
  rw [BitVec.toNat_ofNat]
  omega

theorem State.Inv.foldVStep {s t : State} (h : s.Inv) (hphase : s.phase = .foldV) (hstep : foldVStep s = .next t) :
    t.Inv := by
  obtain ⟨⟨hec, hep, -, -, hav, hval⟩, hlen, hstack, p, hroot⟩ :
      s.clean ∧ s.bits.length = 4 * s.inlen.toNat ∧ s.stack = [] ∧ ∃ p, s.root = some p := by
    simpa [State.phaseFacts, hphase] using h.phase
  cases (foldVStep_of_root hroot).symm.trans hstep
  exact { h with phase := ⟨hec, hep, hav, hval, hlen, hstack, rfl, p, hroot, h.vsum_toNat hroot⟩ }

theorem State.Inv.foldEStep {s t : State} (h : s.Inv) (hphase : s.phase = .foldE) (hstep : foldEStep s = .next t) :
    t.Inv := by
  obtain ⟨hec, hep, hav, hval, -, hstack, hvv, p, hroot, hvsum⟩ :
      s.errcode = .none ∧ s.errpos = 0#32 ∧ s.valueValid = false ∧ s.value = 0#64 ∧
        s.bits.length = 4 * s.inlen.toNat ∧ s.stack = [] ∧ s.vsumValid = true ∧
        ∃ p, s.root = some p ∧ s.vsum.toNat = p.vsumOf := by
    simpa [State.phaseFacts, hphase] using h.phase
  cases heval : p.eval with
  | error e =>
    cases (foldEStep_of_eval_error hroot heval).symm.trans hstep
    have hne : e ≠ .none := fun hnone => p.eval_ne_none (hnone ▸ heval)
    refine { h with phase := ⟨hne, hav, hval, ?_⟩ }
    rw [takeFault_vsumValid, hvv]
    exact ⟨hstack, rfl, p, hroot, hvsum, heval⟩
  | ok x =>
    cases (foldEStep_of_eval_ok hroot heval).symm.trans hstep
    exact { h with
      phase := ⟨hec, hep, rfl, hstack, hvv, p, hroot, hvsum, by rw [heval, toInt_ofInt_of_eval heval]⟩ }

/-- Every decoder step keeps the invariant (R22). -/
theorem State.Inv.decoderStep {s t : State} (h : s.Inv) (hstep : decoderStep s = .next t) : t.Inv := by
  cases hphase : s.phase <;> simp only [Machine.decoderStep, hphase] at hstep
  case idle => cases hstep; exact h
  case unpack => cases hstep; exact h.unpackStep hphase
  case parse => exact h.parseStep hphase hstep
  case foldV => exact h.foldVStep hphase hstep
  case foldE => exact h.foldEStep hphase hstep
  case done => cases hstep; exact h
  case err => cases hstep; exact h

end Sys2Proof.Machine
end

section

open Sys2Proof Sys2Proof.Machine

/-- Settles O50: the next turn is the decoder's or the host's, and neither agent's move breaks the invariant. -/
theorem everyStepKeepsTheInvariant : Obligations.EveryStepKeepsTheInvariant := by
  intro s t h hstep
  unfold step at hstep
  split at hstep
  · exact h.decoderStep hstep
  · exact (h.withTurns _).decoderStep hstep
  · cases hstep
    exact (h.withTurns _).hostMove _

/-- Settles O12: only the third test of `HexVal` reads `HexCase`, and its codes are `0x61` to `0x66`. -/
theorem upperOnlyDiffersOnLowerCase : Obligations.UpperOnlyDiffersOnLowerCase := by
  intro c
  constructor
  · rintro ⟨hlo, hhi⟩
    have h9 : ¬(0x30 ≤ c.toNat ∧ c.toNat ≤ 0x39) := by omega
    have hF : ¬(0x41 ≤ c.toNat ∧ c.toNat ≤ 0x46) := by omega
    simp [hexVal, h9, hF]
  · intro hout
    have haf : ¬(0x61 ≤ c.toNat ∧ c.toNat ≤ 0x66) := by omega
    simp [hexVal, haf]

end

section
/-! SUPPORT. Whose turn a step is, and what each of the decoder's steps can do, once: a PARSE, FOLD_V or FOLD_E step by
its outcomes, and the elements that no decoder step writes. -/

namespace Sys2Proof.Machine

/-! ### The turn -/

theorem step_of_turns_nil {s : State} (h : s.turns = []) : step s = decoderStep s := by
  simp only [step, h]

/-- The decoder moves when its turn comes or no turn is left (R270). -/
theorem step_of_decoder_turn {s : State} {ts : List Turn} (h : s.turns = [] ∨ s.turns = .decoder :: ts) :
    step s = decoderStep { s with turns := s.turns.tail } := by
  obtain h | h := h
  · rw [step_of_turns_nil h, h, List.tail_nil, ← h]
  · simp only [step, h, List.tail_cons]

theorem step_of_host_turn {s : State} {m : HostMove} {ts : List Turn} (h : s.turns = .host m :: ts) :
    step s = .next (hostMove m { s with turns := ts }) := by
  simp only [step, h]

/-- Everything a host write of a register can be (R24, R25, R29): START, a write of `INLEN`, or nothing. -/
theorem writeReg_cases (n : Nat) (d : BitVec 32) (s : State) :
    s.writeReg n d = s.start ∨ s.writeReg n d = s.writeInlen d ∨ s.writeReg n d = s := by
  unfold State.writeReg
  split
  · split
    · exact .inl rfl
    · exact .inr (.inr rfl)
  · exact .inr (.inl rfl)
  · exact .inr (.inr rfl)

/-! ### The decoder's steps -/

/-- The outcomes of the PARSE step (R131): a fault that leaves the block's other elements (R222), or a move past the
head with the frames changed, or with the last frame closed into `ROOT` (R134). -/
theorem parseStep_cases {s t : State} (hstep : parseStep s = .next t) :
    (∃ e pos, e ≠ .none ∧ t = takeFault e pos s) ∨
    ∃ i rest, s.fetch = .instr i rest ∧
      ((∃ st, t = { s with cur := s.curAfter i.headBits, stack := st }) ∨
        ∃ r, t = { s with cur := s.curAfter i.headBits, stack := [], root := some r, phase := .foldV }) := by
  unfold parseStep at hstep
  split at hstep
  · rename_i i rest hfetch
    rw [exec_eq_form] at hstep
    unfold Instr.headBits
    cases hform : i.form with
    | literal v gs =>
      rw [hform] at hstep
      obtain ⟨-, heq⟩ | ⟨-, heq⟩ := execLit_cases v gs s <;> cases heq.symm.trans hstep
      · exact .inl ⟨_, _, by simp, rfl⟩
      · obtain ⟨st, -, heq⟩ | ⟨r, -, heq⟩ | ⟨a, -, heq⟩ :=
          deliver_cases (.literal v (BitVec.ofNat 64 (groupsNumber gs))) (s.curAfter (6 + 5 * gs.length)) s
        · exact .inr ⟨i, rest, hfetch, .inl ⟨st, by rw [heq, hform]⟩⟩
        · exact .inr ⟨i, rest, hfetch, .inr ⟨r, by rw [heq, hform]⟩⟩
        · exact .inl ⟨_, _, by simp, heq⟩
    | total k v l =>
      rw [hform] at hstep
      obtain ⟨-, heq⟩ | ⟨-, -, heq⟩ | ⟨-, -, heq⟩ := headL_cases k v l s <;> cases heq.symm.trans hstep
      · exact .inl ⟨_, _, by simp, rfl⟩
      · exact .inl ⟨_, _, by simp, rfl⟩
      · exact .inr ⟨i, rest, hfetch, .inl ⟨_, by rw [hform]; rfl⟩⟩
    | counted k v n =>
      rw [hform] at hstep
      obtain ⟨-, heq⟩ | ⟨-, -, heq⟩ | ⟨-, -, heq⟩ := headN_cases k v n s <;> cases heq.symm.trans hstep
      · exact .inl ⟨_, _, by simp, rfl⟩
      · exact .inl ⟨_, _, by simp, rfl⟩
      · exact .inr ⟨i, rest, hfetch, .inl ⟨_, by rw [hform]; rfl⟩⟩
  · rename_i r _
    cases hstep
    cases r with
    | endOfBits => exact .inl ⟨_, _, by simp, rfl⟩
    | literalOverflow => exact .inl ⟨_, _, by simp, rfl⟩

/-- Everything the UNPACK step can do (R121, R123). -/
theorem unpackStep_cases (s : State) :
    (∃ pos, unpackStep s = takeFault .invalidHexDigit pos s) ∨
    ∃ bs, unpackStep s = { s with bits := bs, phase := .parse } := by
  unfold unpackStep
  split
  · exact .inl ⟨_, rfl⟩
  · exact .inr ⟨_, rfl⟩

/-- Everything the FOLD_V step can do (R181). -/
theorem foldVStep_cases {s t : State} (hstep : foldVStep s = .next t) :
    ∃ p, s.root = some p ∧ t = { s with vsum := BitVec.ofNat 32 p.vsumOf, vsumValid := true, phase := .foldE } := by
  unfold foldVStep at hstep
  split at hstep
  · cases hstep
  · rename_i p hroot
    cases hstep
    exact ⟨p, hroot, rfl⟩

/-- Everything the FOLD_E step can do (R188): the fault of `Eval`, or its value. -/
theorem foldEStep_cases {s t : State} (hstep : foldEStep s = .next t) :
    ∃ p, s.root = some p ∧
      ((∃ e, e ≠ .none ∧ p.eval = .error e ∧ t = takeFault e 0#32 s) ∨
        ∃ x, p.eval = .ok x ∧ t = { s with value := BitVec.ofInt 64 x, valueValid := true, phase := .done }) := by
  unfold foldEStep at hstep
  split at hstep
  · cases hstep
  · rename_i p hroot
    refine ⟨p, hroot, ?_⟩
    split at hstep
    · rename_i e heval
      cases hstep
      exact .inl ⟨e, fun hnone => p.eval_ne_none (hnone ▸ heval), heval, rfl⟩
    · rename_i x heval
      cases hstep
      exact .inr ⟨x, heval, rfl⟩

/-! ### The decoder's frame -/

/-- `t` has kept what the decoder never writes: the host's elements, the parameters, the turns, the last read. -/
structure HostSideKept (s t : State) : Prop where
  inbuf : t.inbuf = s.inbuf
  inlen : t.inlen = s.inlen
  params : t.params = s.params
  turns : t.turns = s.turns
  hostData : t.hostData = s.hostData

theorem HostSideKept.takeFault (e : ErrCode) (pos : Pos) (s : State) : HostSideKept s (takeFault e pos s) :=
  ⟨rfl, rfl, rfl, rfl, rfl⟩

/-- No decoder step writes `INBUF` or `INLEN` (R62, R25), nor the model's own fields. -/
theorem decoderStep_hostSideKept {s t : State} (hstep : decoderStep s = .next t) : HostSideKept s t := by
  cases hphase : s.phase <;> simp only [decoderStep, hphase] at hstep
  case idle | done | err => cases hstep; exact ⟨rfl, rfl, rfl, rfl, rfl⟩
  case unpack => cases hstep; constructor <;> simp
  case parse =>
    obtain ⟨e, pos, -, rfl⟩ | ⟨_, _, -, ⟨st, rfl⟩ | ⟨r, rfl⟩⟩ := parseStep_cases hstep
    · exact .takeFault e pos s
    · exact ⟨rfl, rfl, rfl, rfl, rfl⟩
    · exact ⟨rfl, rfl, rfl, rfl, rfl⟩
  case foldV =>
    obtain ⟨p, -, rfl⟩ := foldVStep_cases hstep
    exact ⟨rfl, rfl, rfl, rfl, rfl⟩
  case foldE =>
    obtain ⟨_, -, ⟨e, -, -, rfl⟩ | ⟨x, -, rfl⟩⟩ := foldEStep_cases hstep
    · exact .takeFault e _ s
    · exact ⟨rfl, rfl, rfl, rfl, rfl⟩

end Sys2Proof.Machine
end

section
/-! SUPPORT. The status fields: the layout of `STATUS`, and the relations of R23 under each agent's moves. -/

namespace Sys2Proof.Machine

/-- The fields of `STATUS` and the bits around them (R23). -/
theorem status_fields (s : State) :
    s.status.extractLsb' 0 3 = s.phase.code ∧ s.status.getLsbD 3 = s.vsumValid ∧
      s.status.getLsbD 4 = s.valueValid ∧ s.status.extractLsb' 5 3 = 0#3 ∧
      s.status.extractLsb' 8 4 = s.errcode.code ∧ s.status.extractLsb' 12 20 = 0#20 := by
  unfold State.status
  refine ⟨?_, ?_, ?_, ?_, ?_, ?_⟩
  · rw [BitVec.extractLsb'_append_eq_right]
  · rw [BitVec.getLsbD_append, BitVec.getLsbD_append]
    simp
  · rw [BitVec.getLsbD_append, BitVec.getLsbD_append, BitVec.getLsbD_append]
    simp
  · iterate 3 rw [BitVec.extractLsb'_append_eq_of_le (by decide)]
    rw [BitVec.extractLsb'_append_eq_right]
  · iterate 4 rw [BitVec.extractLsb'_append_eq_of_le (by decide)]
    rw [BitVec.extractLsb'_append_eq_right]
  · iterate 4 rw [BitVec.extractLsb'_append_eq_of_le (by decide)]
    rw [BitVec.extractLsb'_append_eq_left]

theorem readReg_of_seven_le {n : Nat} (h : 7 ≤ n) (s : State) : s.readReg n = 0#64 := by
  obtain ⟨k, rfl⟩ := Nat.exists_eq_add_of_le' h
  rfl

/-- A fault with a code of its own, taken where no value is valid, keeps the relations. -/
theorem State.flagsAgree.takeFault {s : State} (h : s.flagsAgree) (hphase : s.phase ≠ .done) {e : ErrCode} (pos : Pos)
    (he : e ≠ .none) : (takeFault e pos s).flagsAgree := by
  obtain ⟨hvalue, -, -, -⟩ := h
  have hv : s.valueValid = false := by simpa [hphase] using hvalue
  simp [State.flagsAgree, hv, he]

/-- The turns to come are no status field. -/
theorem State.flagsAgree.withTurns {s : State} (h : s.flagsAgree) (ts : List Turn) :
    State.flagsAgree { s with turns := ts } := h

/-- The relations are kept by every decoder step (R23). -/
theorem State.flagsAgree.decoderStep {s t : State} (h : s.flagsAgree) (hstep : decoderStep s = .next t) :
    t.flagsAgree := by
  cases hphase : s.phase <;> simp only [Machine.decoderStep, hphase] at hstep
  case idle | done | err => cases hstep; exact h
  case unpack =>
    cases hstep
    obtain ⟨pos, heq⟩ | ⟨bs, heq⟩ := unpackStep_cases s <;> rw [heq]
    · exact h.takeFault (by simp [hphase]) pos (by simp)
    · simpa [State.flagsAgree, hphase] using h
  case parse =>
    obtain ⟨e, pos, he, rfl⟩ | ⟨_, _, -, ⟨st, rfl⟩ | ⟨r, rfl⟩⟩ := parseStep_cases hstep
    · exact h.takeFault (by simp [hphase]) pos he
    · exact h
    · simpa [State.flagsAgree, hphase] using h
  case foldV =>
    obtain ⟨p, -, rfl⟩ := foldVStep_cases hstep
    simpa [State.flagsAgree, hphase] using h
  case foldE =>
    obtain ⟨_, -, ⟨e, he, -, rfl⟩ | ⟨x, -, rfl⟩⟩ := foldEStep_cases hstep
    · exact h.takeFault (by simp [hphase]) _ he
    · obtain ⟨-, -, herr, hvsum⟩ := h
      simpa [State.flagsAgree, hphase] using And.intro (hvsum hphase) herr

/-- The relations are kept by every host move (R23, R270). -/
theorem State.flagsAgree.hostMove {s : State} (h : s.flagsAgree) (m : HostMove) : (hostMove m s).flagsAgree := by
  cases m with
  | writeInbuf i b => simpa [Machine.hostMove, State.flagsAgree] using h
  | readInbuf i => exact h
  | readReg n => exact h
  | reset => simp [Machine.hostMove, State.flagsAgree]
  | writeReg n d =>
    obtain heq | heq | heq := writeReg_cases n d s <;> simp only [Machine.hostMove, heq]
    · unfold State.start
      split
      · exact h
      · simp [State.flagsAgree]
    · simpa [State.flagsAgree] using h
    · exact h

end Sys2Proof.Machine
end

section
/-! SUPPORT. What a run reads (R35): the decoder does the same on any two states that differ only in the data of the
last host read and in cells of `INBUF` at `INLEN` and above. -/

namespace Sys2Proof.Machine

/-- `s` with other cells and another last host read. -/
def State.withHostSide (m : Memory) (d : BitVec 64) (s : State) : State := { s with inbuf := m, hostData := d }

/-- The next state changed by `f`; a stop stays the stop it is. -/
def mapNext (f : State → State) : Host.Outcome State Fault Refusal → Host.Outcome State Fault Refusal
  | .next t => .next (f t)
  | .fault r => .fault r
  | .refused r => .refused r

variable (m : Memory) (d : BitVec 64)

theorem deliver_withHostSide (p : Packet) (cur : Pos) (s : State) :
    deliver p cur (s.withHostSide m d) = (deliver p cur s).withHostSide m d := by
  unfold deliver
  rw [show (s.withHostSide m d).stack = s.stack from rfl]
  cases deliverTo cur s.stack p <;> rfl

theorem execLit_withHostSide (v : Version) (gs : List Nibble) (s : State) :
    execLit v gs (s.withHostSide m d) = mapNext (State.withHostSide m d) (execLit v gs s) := by
  unfold execLit
  cases literalValue gs with
  | none => rfl
  | some x => exact congrArg Host.Outcome.next (deliver_withHostSide m d _ _ s)

theorem headL_withHostSide (k : OpKind) (v : Version) (l : Length) (s : State) :
    headL k v l (s.withHostSide m d) = mapNext (State.withHostSide m d) (headL k v l s) := by
  simp only [headL, apply_ite (mapNext (State.withHostSide m d))]
  rfl

theorem headN_withHostSide (k : OpKind) (v : Version) (n : Count) (s : State) :
    headN k v n (s.withHostSide m d) = mapNext (State.withHostSide m d) (headN k v n s) := by
  simp only [headN, apply_ite (mapNext (State.withHostSide m d))]
  rfl

theorem exec_withHostSide (i : Instr) (s : State) :
    exec i (s.withHostSide m d) = mapNext (State.withHostSide m d) (exec i s) := by
  rw [exec_eq_form, exec_eq_form]
  cases i.form with
  | literal v gs => exact execLit_withHostSide m d v gs s
  | total k v l => exact headL_withHostSide m d k v l s
  | counted k v n => exact headN_withHostSide m d k v n s

theorem parseStep_withHostSide (s : State) :
    parseStep (s.withHostSide m d) = mapNext (State.withHostSide m d) (parseStep s) := by
  unfold parseStep
  rw [show (s.withHostSide m d).fetch = s.fetch from rfl]
  cases s.fetch with
  | instr i rest => exact exec_withHostSide m d i s
  | reject r => cases r <;> rfl

theorem foldVStep_withHostSide (s : State) :
    foldVStep (s.withHostSide m d) = mapNext (State.withHostSide m d) (foldVStep s) := by
  unfold foldVStep
  rw [show (s.withHostSide m d).root = s.root from rfl]
  cases s.root <;> rfl

theorem foldEStep_withHostSide (s : State) :
    foldEStep (s.withHostSide m d) = mapNext (State.withHostSide m d) (foldEStep s) := by
  unfold foldEStep
  rw [show (s.withHostSide m d).root = s.root from rfl]
  cases s.root with
  | none => rfl
  | some p => cases hp : p.eval <;> simp only [hp] <;> rfl

/-- Unpacking reads no cell but those it unpacks (R121, R123). -/
theorem unpackFrom_congr {s s' : State} (hparams : s.params = s'.params) {n i : Nat}
    (hcells : ∀ j, i ≤ j → j < i + n → s.inbufByte j = s'.inbufByte j) : unpackFrom s n i = unpackFrom s' n i := by
  induction n generalizing i with
  | zero => rfl
  | succ n ih =>
    have hrest := ih (i := i + 1) fun j hlo hhi => hcells j (by omega) (by omega)
    simp only [unpackFrom, hparams, hcells i (Nat.le_refl i) (by omega), hrest]

variable {m d}

theorem unpackStep_withHostSide {s : State}
    (hcells : ∀ i, i < s.inlen.toNat → s.inbufByte i = (s.withHostSide m d).inbufByte i) :
    unpackStep (s.withHostSide m d) = (unpackStep s).withHostSide m d := by
  have hunpack : unpackFrom s s.inlen.toNat 0 = unpackFrom (s.withHostSide m d) s.inlen.toNat 0 :=
    unpackFrom_congr (s := s) (s' := s.withHostSide m d) rfl fun j _ hj => hcells j (by rwa [Nat.zero_add] at hj)
  unfold unpackStep
  rw [show (s.withHostSide m d).inlen = s.inlen from rfl, ← hunpack]
  cases unpackFrom s s.inlen.toNat 0 <;> rfl

/-- The decoder's step reads of the host's side only the message (R35). -/
theorem decoderStep_withHostSide {s : State}
    (hcells : ∀ i, i < s.inlen.toNat → s.inbufByte i = (s.withHostSide m d).inbufByte i) :
    decoderStep (s.withHostSide m d) = mapNext (State.withHostSide m d) (decoderStep s) := by
  unfold decoderStep
  rw [show (s.withHostSide m d).phase = s.phase from rfl]
  cases s.phase with
  | idle | done | err => rfl
  | unpack => exact congrArg Host.Outcome.next (unpackStep_withHostSide hcells)
  | parse => exact parseStep_withHostSide m d s
  | foldV => exact foldVStep_withHostSide m d s
  | foldE => exact foldEStep_withHostSide m d s

/-- So does a run with no host move in it, by induction on its steps: no decoder step changes the message. -/
theorem run_withHostSide {s t : State} {k : Nat} (hturns : s.turns = [])
    (hcells : ∀ i, i < s.inlen.toNat → s.inbufByte i = (s.withHostSide m d).inbufByte i)
    (hrun : Host.Core.run core k s = .next t) :
    Host.Core.run core k (s.withHostSide m d) = .next (t.withHostSide m d) := by
  induction k generalizing s with
  | zero => cases hrun; rfl
  | succ k ih =>
    have hstep : core.step s = decoderStep s := step_of_turns_nil hturns
    have hstep' : core.step (s.withHostSide m d) = mapNext (State.withHostSide m d) (decoderStep s) :=
      (step_of_turns_nil (s := s.withHostSide m d) hturns).trans (decoderStep_withHostSide hcells)
    simp only [Host.Core.run, hstep] at hrun
    simp only [Host.Core.run, hstep']
    cases hu : decoderStep s with
    | next u =>
      have hkept := decoderStep_hostSideKept hu
      rw [hu] at hrun
      refine ih (hkept.turns.trans hturns) (fun i hi => ?_) hrun
      rw [hkept.inlen] at hi
      simpa [State.inbufByte, State.withHostSide, hkept.inbuf] using hcells i hi
    | fault r => rw [hu] at hrun; cases hrun
    | refused r => rw [hu] at hrun; cases hrun

/-- After START two blocks with the same parameters and `INLEN` differ only in `INBUF` and the last read (R271). -/
theorem start_eq_withHostSide {s s' : State} (hbusy : s.phase.busy = false) (hbusy' : s'.phase.busy = false)
    (hparams : s.params = s'.params) (hinlen : s.inlen = s'.inlen) (hturns : s.turns = s'.turns) :
    s'.start = s.start.withHostSide s'.inbuf s'.hostData := by
  simp [State.start, State.withHostSide, hbusy, hbusy', hparams, hinlen, hturns]

end Sys2Proof.Machine
end

section

open Sys2Proof Sys2Proof.Machine

/-- Settles O6: the write stores under its guard alone, and no decoder step writes `INLEN`. -/
theorem inlenWriteAnyReadLegal : Obligations.InlenWriteAnyReadLegal := by
  intro s ts
  refine ⟨fun v hturns => ?_, fun t hturns hstep => ?_⟩
  · have hstep : step s = .next (State.writeInlen v { s with turns := ts }) := step_of_host_turn hturns
    rw [hstep]
    refine ⟨fun hbusy hle => ?_, fun hdrop => ?_⟩
    · rw [State.writeInlen, if_pos ⟨hbusy, hle⟩]
    · rw [State.writeInlen, if_neg]
      rintro ⟨hbusy, hle⟩
      obtain hb | hgt := hdrop
      · exact Bool.false_ne_true (hbusy.symm.trans hb)
      · exact absurd hle (Nat.not_le_of_lt hgt)
  · rw [step_of_decoder_turn hturns] at hstep
    exact (decoderStep_hostSideKept hstep).inlen

/-- Settles O22: a step that does not fault has decoded a head, which lies in `BITS`, so the cursor does not wrap. -/
theorem parseStepMovesTheCursorByTheHead : Obligations.ParseStepMovesTheCursorByTheHead := by
  intro s t h hphase hturns hstep
  rw [step_of_turns_nil hturns] at hstep
  simp only [decoderStep, hphase] at hstep
  obtain ⟨e, pos, -, rfl⟩ | ⟨i, rest, hfetch, hmove⟩ := parseStep_cases hstep
  · exact .inl ⟨rfl, rfl⟩
  · obtain ⟨hlen, hbits⟩ := fetch_bounds h.curRange hfetch
    have hcur := h.curAfter_toNat hbits
    have hto : t.phase ≠ .err ∧ t.cur = s.curAfter i.headBits := by
      obtain ⟨st, rfl⟩ | ⟨r, rfl⟩ := hmove
      · exact ⟨by simp [hphase], rfl⟩
      · exact ⟨by simp, rfl⟩
    obtain ⟨hne, htcur⟩ := hto
    rw [htcur, hcur]
    exact .inr ⟨hne, i, rest, hfetch, rfl, hlen, hbits⟩

/-- Settles O52: the next turn is the decoder's or the host's, and neither agent's move breaks the relations. -/
theorem statusFieldsAgree : Obligations.StatusFieldsAgree := by
  intro s t h hstep
  unfold step at hstep
  split at hstep
  · exact h.decoderStep hstep
  · exact (h.withTurns _).decoderStep hstep
  · cases hstep
    exact (h.withTurns _).hostMove _

/-- Settles O56: after START the two states differ only in what no decoder step reads. -/
theorem theMessageAloneDeterminesTheRun : Obligations.TheMessageAloneDeterminesTheRun := by
  intro s s' hbusy hbusy' hturns hturns' hparams hinlen hcells k t hrun
  rw [start_eq_withHostSide hbusy hbusy' hparams hinlen (hturns.trans hturns'.symm)]
  refine run_withHostSide (by simpa using hturns) (fun i hi => ?_) hrun
  rw [start_inlen] at hi
  simpa [State.inbufByte, State.withHostSide] using hcells i hi

/-- Settles O1: the table is `State.reset`, and no cell is written. -/
theorem resetStateIsTheTable : Obligations.ResetStateIsTheTable :=
  ⟨rfl, rfl, rfl, rfl, rfl, rfl, rfl, rfl, rfl, rfl, rfl, rfl, rfl, rfl, fun _ => rfl⟩

/-- Settles O7: the registers by their numbers, the fields by their places in `STATUS`. -/
theorem registerMapAndStatusLayout : Obligations.RegisterMapAndStatusLayout :=
  ⟨fun s => ⟨rfl, rfl, rfl, rfl, rfl, rfl, rfl, fun _ hn => readReg_of_seven_le hn s, status_fields s⟩, rfl, rfl⟩

/-- Settles O10: a phase that is not BUSY is `IDLE`, `DONE` or `ERR`, where the decoder has no step. -/
theorem idleDecoderWaits : Obligations.IdleDecoderWaits := by
  intro s hbusy hturns
  rw [step_of_turns_nil hturns]
  rcases Phase.busy_eq_false.mp hbusy with hp | hp | hp <;> simp only [decoderStep, hp]

/-- Settles O49: the default parameters are legal, and no message is under way. -/
theorem resetMeetsTheInvariant : Obligations.ResetMeetsTheInvariant :=
  .of_blank (by decide) reset_inbuf_wf (by simp [State.reset]) (Nat.zero_le _) (.inl rfl)
    (by simp [State.reset, State.clean])

end

section
/-! SUPPORT. The message and its bits: the host's port to `INBUF`, what unpacking gives character by character, and who
writes `BITS`. -/

namespace Sys2Proof

/-- Bit `j` of a field in transmission order is bit `n - 1 - j` of its number (R64, R65). -/
theorem bitsOf_getElem? {n j : Nat} (v : Nat) (h : j < n) : (bitsOf n v)[j]? = some (v.testBit (n - 1 - j)) := by
  induction n generalizing j with
  | zero => omega
  | succ n ih =>
    cases j with
    | zero => rfl
    | succ j =>
      rw [bitsOf, List.getElem?_cons_succ, ih (by omega), show n - 1 - j = n + 1 - 1 - (j + 1) by omega]

end Sys2Proof

namespace Sys2Proof.Machine

/-! ### The host's port to INBUF (R62) -/

theorem writeInbuf_of_stored {i : Nat} {s : State} (b : Byte) (hbusy : s.phase.busy = false)
    (hi : i < s.params.maxHex) : s.writeInbuf i b = { s with inbuf := Memory.write i b s.inbuf } :=
  if_pos ⟨hbusy, hi⟩

theorem writeInbuf_of_dropped {i : Nat} {s : State} (b : Byte) (h : s.phase.busy = true ∨ s.params.maxHex ≤ i) :
    s.writeInbuf i b = s := by
  refine if_neg ?_
  rintro ⟨hbusy, hi⟩
  obtain hb | hge := h
  · exact Bool.false_ne_true (hbusy.symm.trans hb)
  · exact absurd hi (Nat.not_lt_of_le hge)

theorem readInbuf_of_lt {i : Nat} {s : State} (h : i < s.params.maxHex) : s.readInbuf i = s.inbufByte i := if_pos h

theorem readInbuf_of_le {i : Nat} {s : State} (h : s.params.maxHex ≤ i) : s.readInbuf i = 0#8 :=
  if_neg (Nat.not_lt_of_le h)

/-! ### Unpacking character by character (R63, R64, R121) -/

/-- Unpacking succeeds when the first character is a digit and the others unpack; the digit's bits come first. -/
theorem unpackFrom_succ_eq_bits {s : State} {n i : Nat} {bs : List Bool} :
    unpackFrom s (n + 1) i = .bits bs ↔
      ∃ d rest, hexVal s.params.hexCase (s.inbufByte i) = some d ∧ unpackFrom s n (i + 1) = .bits rest ∧
        bitsOf 4 d.toNat ++ rest = bs := by
  rw [unpackFrom]
  cases hexVal s.params.hexCase (s.inbufByte i) with
  | none => simp
  | some d => cases unpackFrom s n (i + 1) <;> simp

theorem unpackFrom_of_digits {s : State} {n i : Nat}
    (h : ∀ k, k < n → hexVal s.params.hexCase (s.inbufByte (i + k)) ≠ none) : ∃ bs, unpackFrom s n i = .bits bs := by
  induction n generalizing i with
  | zero => exact ⟨[], rfl⟩
  | succ n ih =>
    obtain ⟨d, hd⟩ := Option.ne_none_iff_exists'.mp (h 0 (by omega))
    obtain ⟨rest, hrest⟩ := ih (i := i + 1) fun k hk => by
      rw [Nat.add_right_comm]
      exact h (k + 1) (by omega)
    exact ⟨_, unpackFrom_succ_eq_bits.mpr ⟨d, rest, hd, hrest, rfl⟩⟩

/-- Character `k` of the unpacked ones gives the bits `4k` to `4k + 3`, most significant first. -/
theorem unpackFrom_getElem? {s : State} {n i k j : Nat} {bs : List Bool} {d : Nibble}
    (h : unpackFrom s n i = .bits bs) (hk : k < n) (hd : hexVal s.params.hexCase (s.inbufByte (i + k)) = some d)
    (hj : j < 4) : bs[4 * k + j]? = some (d.getLsbD (3 - j)) := by
  induction n generalizing i k bs with
  | zero => omega
  | succ n ih =>
    obtain ⟨d₀, rest, hd₀, hrest, rfl⟩ := unpackFrom_succ_eq_bits.mp h
    cases k with
    | zero =>
      obtain rfl : d₀ = d := Option.some.inj (hd₀.symm.trans hd)
      rw [Nat.mul_zero, Nat.zero_add, List.getElem?_append_left (by simpa using hj), bitsOf_getElem? _ hj]
      rfl
    | succ k =>
      rw [List.getElem?_append_right (by rw [bitsOf_length]; omega), bitsOf_length,
        show 4 * (k + 1) + j - 4 = 4 * k + j by omega]
      exact ih hrest (by omega) (by rwa [Nat.add_right_comm])

theorem unpackStep_of_bits {s : State} {bs : List Bool} (h : unpackFrom s s.inlen.toNat 0 = .bits bs) :
    unpackStep s = { s with bits := bs, phase := .parse } := by
  simp only [unpackStep, h]

/-! ### Who writes BITS (R66) -/

/-- After UNPACK the decoder only reads `BITS`. -/
theorem decoderStep_bits {s t : State} (hstep : decoderStep s = .next t) (hne : s.phase ≠ .unpack) :
    t.bits = s.bits := by
  cases hphase : s.phase <;> simp only [decoderStep, hphase] at hstep
  case idle | done | err => cases hstep; rfl
  case unpack => exact absurd hphase hne
  case parse => obtain ⟨e, pos, -, rfl⟩ | ⟨_, _, -, ⟨st, rfl⟩ | ⟨r, rfl⟩⟩ := parseStep_cases hstep <;> rfl
  case foldV => obtain ⟨p, -, rfl⟩ := foldVStep_cases hstep; rfl
  case foldE => obtain ⟨_, -, ⟨e, -, -, rfl⟩ | ⟨x, -, rfl⟩⟩ := foldEStep_cases hstep <;> rfl

theorem start_of_busy {s : State} (h : s.phase.busy = true) : s.start = s := if_pos h

/-- A host write of a register that is no START leaves `BITS` (R24, R29). -/
theorem writeReg_bits {n : Nat} {d : BitVec 32} {s : State}
    (h : ¬(s.phase.busy = false ∧ n = 0 ∧ d.getLsbD 0 = true)) : (s.writeReg n d).bits = s.bits := by
  unfold State.writeReg
  split
  · split
    · rename_i hd
      have hbusy : s.phase.busy = true := by simpa [hd] using h
      rw [start_of_busy hbusy]
    · rfl
  · exact writeInlen_bits d s
  · rfl

/-- A host move that is neither START nor reset leaves `BITS`. -/
theorem hostMove_bits {m : HostMove} {s : State}
    (hstart : ¬(s.phase.busy = false ∧ ∃ d, m = .writeReg 0 d ∧ d.getLsbD 0 = true)) (hreset : m ≠ .reset) :
    (hostMove m s).bits = s.bits := by
  cases m with
  | writeInbuf i b => exact writeInbuf_bits i b s
  | readInbuf i => rfl
  | readReg n => rfl
  | reset => exact absurd rfl hreset
  | writeReg n d =>
    refine writeReg_bits ?_
    rintro ⟨hbusy, rfl, hd⟩
    exact hstart ⟨hbusy, d, rfl, hd⟩

end Sys2Proof.Machine
end

section

open Sys2Proof Sys2Proof.Machine

/-- Settles O5: the write stores under its guard alone, the read tests the index alone, and no decoder step writes
`INBUF`. -/
theorem inbufHostAccess : Obligations.InbufHostAccess := by
  intro s ts i
  refine ⟨fun b hturns => ?_, fun hturns => ?_, fun t hturns hstep => ?_⟩
  · have hstep : step s = .next (State.writeInbuf i b { s with turns := ts }) := step_of_host_turn hturns
    rw [hstep]
    refine ⟨fun hbusy hi => ?_, fun hdrop => ?_⟩
    · refine ⟨_, rfl, inbufByte_writeInbuf_same hbusy hi, fun j hj => inbufByte_writeInbuf_other hj b _, ?_⟩
      rw [writeInbuf_of_stored (s := { s with turns := ts }) b hbusy hi]
    · rw [writeInbuf_of_dropped (s := { s with turns := ts }) b hdrop]
  · have hstep : step s =
        .next { s with turns := ts, hostData := (State.readInbuf i { s with turns := ts }).setWidth 64 } :=
      step_of_host_turn hturns
    rw [hstep]
    refine ⟨fun hlt => ?_, fun hle => ?_⟩
    · rw [readInbuf_of_lt (s := { s with turns := ts }) hlt]
      rfl
    · rw [readInbuf_of_le (s := { s with turns := ts }) hle]
      rfl
  · rw [step_of_decoder_turn hturns] at hstep
    exact (decoderStep_hostSideKept hstep).inbuf

/-- Settles O13: with a digit in every cell below `INLEN` unpacking gives bits, four from each character. -/
theorem unpackGivesFourBitsPerCharacter : Obligations.UnpackGivesFourBitsPerCharacter := by
  intro s hphase hturns hdigits
  obtain ⟨bs, hbs⟩ : ∃ bs, unpackFrom s s.inlen.toNat 0 = .bits bs :=
    unpackFrom_of_digits fun k hk => by simpa using hdigits k hk
  refine ⟨bs, ?_, unpackFrom_length hbs, fun i d hi hd j hj => ?_⟩
  · rw [step_of_turns_nil hturns]
    simp only [decoderStep, hphase, unpackStep_of_bits hbs]
  · exact unpackFrom_getElem? hbs hi (by simpa using hd) hj

/-- Settles O24: past UNPACK the decoder keeps `BITS`, and so does every host move but START and reset. -/
theorem bitsAreReadOnlyAfterUnpack : Obligations.BitsAreReadOnlyAfterUnpack := by
  intro s t hstep hne
  unfold step at hstep
  split at hstep
  · rename_i hturns
    exact .inl ⟨by_contra fun hphase => hne (decoderStep_bits hstep hphase), .inl hturns⟩
  · rename_i ts hturns
    exact .inl ⟨by_contra fun hphase => hne (decoderStep_bits (s := { s with turns := ts }) hstep hphase),
      .inr ⟨ts, hturns⟩⟩
  · rename_i m ts hturns
    cases hstep
    right
    by_contra hother
    obtain ⟨hstart, hreset⟩ := not_or.mp hother
    refine hne (hostMove_bits (s := { s with turns := ts }) ?_ ?_)
    · rintro ⟨hbusy, d, rfl, hd⟩
      exact hstart ⟨hbusy, d, ts, hturns, hd⟩
    · rintro rfl
      exact hreset ⟨ts, hturns⟩

end

section
/-! SUPPORT. Decoder and encoder, from the encoder's side: an instruction is its format with the fields, each field is
read back from its bits, and the first 7 bits of an encoding are the opcode table's head word. -/

namespace Sys2Proof

/-! ### An instruction is its format with the fields (R90, R99) -/

/-- The instruction of a format, with its fields. -/
def Form.instr : Form → Instr
  | .literal v gs => .lit v gs
  | .total k v l => .ofTotal k v l
  | .counted k v n => .ofCount k v n

theorem Instr.instr_form (i : Instr) : i.form.instr = i := by
  cases i <;> rfl

/-- A statement about every instruction is one about literals, total-length heads and count heads. -/
theorem Instr.form_induction {P : Instr → Prop} (lit : ∀ v gs, P (.lit v gs)) (total : ∀ k v l, P (.ofTotal k v l))
    (counted : ∀ k v n, P (.ofCount k v n)) (i : Instr) : P i := by
  rw [← i.instr_form]
  cases i.form with
  | literal v gs => exact lit v gs
  | total k v l => exact total k v l
  | counted k v n => exact counted k v n

theorem encode_lit (v : Version) (gs : List Nibble) :
    encode (.lit v gs) = bitsOf 3 v.toNat ++ bitsOf 3 (4#3).toNat ++ encodeGroups gs := rfl

theorem encode_ofTotal (k : OpKind) (v : Version) (l : Length) :
    encode (.ofTotal k v l) = bitsOf 3 v.toNat ++ bitsOf 3 k.typeId.toNat ++ ([false] ++ bitsOf 15 l.toNat) := by
  simp [encode]

theorem encode_ofCount (k : OpKind) (v : Version) (n : Count) :
    encode (.ofCount k v n) = bitsOf 3 v.toNat ++ bitsOf 3 k.typeId.toNat ++ ([true] ++ bitsOf 11 n.toNat) := by
  simp [encode]

/-! ### Reading the fields back (R91 to R95) -/

theorem OpKind.ofTypeId_typeId (k : OpKind) : OpKind.ofTypeId k.typeId = some k := by
  cases k <;> rfl

/-- The header is read as one 6-bit field, the version over the type id (R91, R131). -/
theorem readField_header (v : Version) (t : TypeId) (bs : List Bool) :
    ∃ h : BitVec 6, readField 6 (bitsOf 3 v.toNat ++ bitsOf 3 t.toNat ++ bs) = some (h, bs) ∧
      h.extractLsb' 3 3 = v ∧ h.extractLsb' 0 3 = t := by
  have hv : (v ++ t).extractLsb' 3 3 = v := BitVec.extractLsb'_append_eq_left
  have ht : (v ++ t).extractLsb' 0 3 = t := BitVec.extractLsb'_append_eq_right
  have hread := readField_bitsOf (v ++ t) bs
  rw [bitsOf_header, hv, ht] at hread
  exact ⟨v ++ t, hread, hv, ht⟩

/-- After a header with type id 4 the literal's body is decoded (R131). -/
theorem decode_literal_header (v : Version) (bs : List Bool) :
    decode (bitsOf 3 v.toNat ++ bitsOf 3 (4#3).toNat ++ bs) = decodeLiteral v bs := by
  obtain ⟨h, hread, hv, ht⟩ := readField_header v 4#3 bs
  simp only [decode, hread, hv, ht, show OpKind.ofTypeId 4#3 = none from rfl]

/-- After a header with an operation's type id the operator's head is decoded (R131). -/
theorem decode_operator_header (k : OpKind) (v : Version) (bs : List Bool) :
    decode (bitsOf 3 v.toNat ++ bitsOf 3 k.typeId.toNat ++ bs) = decodeOperator k v bs := by
  obtain ⟨h, hread, hv, ht⟩ := readField_header v k.typeId bs
  simp only [decode, hread, hv, ht, OpKind.ofTypeId_typeId]

/-- Reading groups stops at the end of an encoded group string, not before and not after (R93). -/
theorem readGroups_encodeGroups {gs : List Nibble} (hne : gs ≠ []) (rest : List Bool) :
    readGroups (encodeGroups gs ++ rest) = .complete gs rest := by
  induction gs with
  | nil => exact absurd rfl hne
  | cons g gs ih =>
    have hstep := readGroups_bitsOf (!gs.isEmpty) g (encodeGroups gs ++ rest)
    rw [encodeGroups_cons, List.append_assoc, hstep]
    cases gs with
    | nil => rfl
    | cons g' gs => simp [ih, Groups.push]

theorem decodeLiteral_encodeGroups (v : Version) {gs : List Nibble} (hne : gs ≠ []) (rest : List Bool) :
    decodeLiteral v (encodeGroups gs ++ rest) = .instr (.lit v gs) rest := by
  rw [decodeLiteral, readGroups_encodeGroups hne]

/-- A flag is read as a 1-bit field (R94, R95). -/
theorem readField_flag (flag : Bool) (bs : List Bool) : readField 1 ([flag] ++ bs) = some (BitVec.ofBool flag, bs) := by
  cases flag <;> rfl

theorem decodeOperator_total (k : OpKind) (v : Version) (l : Length) (rest : List Bool) :
    decodeOperator k v ([false] ++ bitsOf 15 l.toNat ++ rest) = .instr (.ofTotal k v l) rest := by
  rw [decodeOperator, List.append_assoc, readField_flag]
  simp [readField_bitsOf]

theorem decodeOperator_counted (k : OpKind) (v : Version) (n : Count) (rest : List Bool) :
    decodeOperator k v ([true] ++ bitsOf 11 n.toNat ++ rest) = .instr (.ofCount k v n) rest := by
  rw [decodeOperator, List.append_assoc, readField_flag]
  simp [readField_bitsOf]

/-- Decoding undoes encoding. -/
theorem decode_encode {i : Instr} (h : i.encodable = true) (rest : List Bool) :
    decode (encode i ++ rest) = .instr i rest := by
  induction i using Instr.form_induction with
  | lit v gs =>
    have hne : gs ≠ [] := by simpa [Instr.encodable] using h
    rw [encode_lit, List.append_assoc, decode_literal_header, decodeLiteral_encodeGroups v hne]
  | total k v l => rw [encode_ofTotal, List.append_assoc, decode_operator_header, decodeOperator_total]
  | counted k v n => rw [encode_ofCount, List.append_assoc, decode_operator_header, decodeOperator_counted]

/-! ### The opcode table (R100) -/

/-- The mnemonics of the rows that a head word matches, the head word given by its bits. -/
def headMnemonics (bs : List Bool) : List String :=
  (opcodeTable.filter (fun r => r.hits (BitVec.ofNat 7 (bitsValue bs)))).map TableRow.mnemonic

theorem Instr.mnemonic_ofTotal (k : OpKind) (v : Version) (l : Length) :
    (Instr.ofTotal k v l).mnemonic = (Instr.ofTotal k 0#3 0#15).mnemonic := by
  cases k <;> rfl

theorem Instr.mnemonic_ofCount (k : OpKind) (v : Version) (n : Count) :
    (Instr.ofCount k v n).mnemonic = (Instr.ofCount k 0#3 0#11).mnemonic := by
  cases k <;> rfl

/-- LIT's row leaves the bit after the header free. -/
theorem headMnemonics_lit (v : Version) (flag : Bool) :
    headMnemonics (bitsOf 3 v.toNat ++ bitsOf 3 (4#3).toNat ++ [flag]) = ["LIT"] := by
  revert v flag
  decide

theorem headMnemonics_total (k : OpKind) (v : Version) (l : Length) :
    headMnemonics (bitsOf 3 v.toNat ++ bitsOf 3 k.typeId.toNat ++ [false]) = [(Instr.ofTotal k v l).mnemonic] := by
  rw [Instr.mnemonic_ofTotal]
  revert v
  cases k <;> decide

theorem headMnemonics_counted (k : OpKind) (v : Version) (n : Count) :
    headMnemonics (bitsOf 3 v.toNat ++ bitsOf 3 k.typeId.toNat ++ [true]) = [(Instr.ofCount k v n).mnemonic] := by
  rw [Instr.mnemonic_ofCount]
  revert v
  cases k <;> decide

/-- The first 7 bits of an encoding match the instruction's row alone. -/
theorem headMnemonics_encode {i : Instr} (h : i.encodable = true) (rest : List Bool) :
    headMnemonics ((encode i ++ rest).take 7) = [i.mnemonic] := by
  induction i using Instr.form_induction with
  | lit v gs =>
    cases gs with
    | nil => cases h
    | cons g gs => exact headMnemonics_lit v (!gs.isEmpty)
  | total k v l =>
    rw [encode_ofTotal]
    exact headMnemonics_total k v l
  | counted k v n =>
    rw [encode_ofCount]
    exact headMnemonics_counted k v n

end Sys2Proof

namespace Sys2Proof.Machine

/-! ### Empty operators (R165) -/

theorem headL_zero (k : OpKind) (v : Version) (s : State) :
    headL k v 0#15 s = .next (takeFault .malformedLength s.cur s) := if_pos rfl

theorem headN_zero (k : OpKind) (v : Version) (s : State) :
    headN k v 0#11 s = .next (takeFault .malformedLength s.cur s) := if_pos rfl

end Sys2Proof.Machine
end

section

open Sys2Proof Sys2Proof.Machine

/-- Settles O16: by the three formats, each field being read back from its bits. -/
theorem decodeUndoesEncode : Obligations.DecodeUndoesEncode :=
  fun _ rest h => decode_encode h rest

/-- Settles O17: what `decode` accepts is an encoding, and an encoding has its head's length. -/
theorem decodedBitsAreTheEncoding : Obligations.DecodedBitsAreTheEncoding := by
  intro bs rest i h
  obtain ⟨henc, hbs⟩ := decode_eq_instr h
  exact ⟨henc, hbs, encode_length i⟩

/-- Settles O18: the 128 head words are looked up one by one; the bits decoded are an encoding, whose first 7 bits match
the row of its instruction. -/
theorem tableDecodesEveryHead : Obligations.TableDecodesEveryHead := by
  refine ⟨by decide, fun bs rest i h => ?_⟩
  obtain ⟨henc, rfl⟩ := decode_eq_instr h
  exact headMnemonics_encode henc rest

/-- Settles O29: the test for an empty operator comes first in both heads. -/
theorem emptyOperatorsFaultAtTheHead : Obligations.EmptyOperatorsFaultAtTheHead := by
  intro i k v s h
  rw [exec_eq_form]
  obtain hform | hform := h
  · rw [hform]
    exact headL_zero k v s
  · rw [hform]
    exact headN_zero k v s

end

section
/-! SUPPORT. `HexVal` by the ranges of its codes, and where unpacking stops. -/

namespace Sys2Proof.Machine

/-! ### HexVal, one equation for each range (R122) -/

theorem hexVal_of_decimal {hexCase : Config.HexCase} {c : Byte} (hlo : 0x30 ≤ c.toNat) (hhi : c.toNat ≤ 0x39) :
    hexVal hexCase c = some (BitVec.ofNat 4 (c.toNat - 0x30)) := if_pos ⟨hlo, hhi⟩

theorem hexVal_of_upper {hexCase : Config.HexCase} {c : Byte} (hlo : 0x41 ≤ c.toNat) (hhi : c.toNat ≤ 0x46) :
    hexVal hexCase c = some (BitVec.ofNat 4 (c.toNat - 0x41 + 10)) := by
  rw [hexVal, if_neg (by omega), if_pos ⟨hlo, hhi⟩]

theorem hexVal_both_of_lower {c : Byte} (hlo : 0x61 ≤ c.toNat) (hhi : c.toNat ≤ 0x66) :
    hexVal .both c = some (BitVec.ofNat 4 (c.toNat - 0x61 + 10)) := by
  rw [hexVal, if_neg (by omega), if_neg (by omega), if_pos ⟨rfl, hlo, hhi⟩]

/-- A code outside the three ranges is no digit, whichever cases the block accepts. -/
theorem hexVal_eq_none {hexCase : Config.HexCase} {c : Byte}
    (h : c.toNat < 0x30 ∨ (0x39 < c.toNat ∧ c.toNat < 0x41) ∨ (0x46 < c.toNat ∧ c.toNat < 0x61) ∨ 0x66 < c.toNat) :
    hexVal hexCase c = none := by
  rw [hexVal, if_neg (by omega), if_neg (by omega), if_neg (by omega)]

/-! ### The least invalid character (R123) -/

theorem unpackFrom_of_leastInvalid {s : State} {n i k : Nat} (hk : k < n)
    (hinvalid : hexVal s.params.hexCase (s.inbufByte (i + k)) = none)
    (hdigits : ∀ j, j < k → hexVal s.params.hexCase (s.inbufByte (i + j)) ≠ none) :
    unpackFrom s n i = .invalid (i + k) := by
  induction n generalizing i k with
  | zero => omega
  | succ n ih =>
    cases k with
    | zero =>
      have hfirst : hexVal s.params.hexCase (s.inbufByte i) = none := hinvalid
      simp only [unpackFrom, hfirst, Nat.add_zero]
    | succ k =>
      have hfirst : hexVal s.params.hexCase (s.inbufByte i) ≠ none := hdigits 0 (by omega)
      obtain ⟨d, hd⟩ := Option.ne_none_iff_exists'.mp hfirst
      have hnext (j : Nat) : i + 1 + j = i + (j + 1) := by omega
      have hrest : unpackFrom s n (i + 1) = .invalid (i + 1 + k) :=
        ih (by omega) (by rwa [hnext]) fun j hj => by
          rw [hnext]
          exact hdigits (j + 1) (by omega)
      simp only [unpackFrom, hd, hrest, hnext]

theorem unpackStep_of_invalid {s : State} {i : Nat} (h : unpackFrom s s.inlen.toNat 0 = .invalid i) :
    unpackStep s = takeFault .invalidHexDigit (BitVec.ofNat 32 i) s := by
  simp only [unpackStep, h]

end Sys2Proof.Machine
end

section

open Sys2Proof Sys2Proof.Machine

/-- Settles O14: unpacking stops at the first character that is no digit, and it reads only the cells below `INLEN`. -/
theorem unpackFaultsAtTheLeastInvalidIndex : Obligations.UnpackFaultsAtTheLeastInvalidIndex := by
  constructor
  · intro s i hphase hturns hi hinvalid hdigits
    have hstop : unpackFrom s s.inlen.toNat 0 = .invalid i := by
      simpa using unpackFrom_of_leastInvalid (i := 0) hi (by simpa using hinvalid) (by simpa using hdigits)
    rw [step_of_turns_nil hturns]
    simp only [decoderStep, hphase, unpackStep_of_invalid hstop]
    rfl
  · intro s t m _ hturns hcells hstep
    rw [step_of_turns_nil hturns] at hstep
    have hread : decoderStep (s.withHostSide m s.hostData) =
        mapNext (State.withHostSide m s.hostData) (decoderStep s) :=
      decoderStep_withHostSide fun i hi => (hcells i hi).symm
    have hkept : t.hostData = s.hostData := (decoderStep_hostSideKept hstep).hostData
    calc step { s with inbuf := m }
      _ = decoderStep (s.withHostSide m s.hostData) := step_of_turns_nil (s := { s with inbuf := m }) hturns
      _ = .next (t.withHostSide m s.hostData) := by rw [hread, hstep]; rfl
      _ = .next { t with inbuf := m } := by rw [← hkept]; rfl

/-- Settles O11: the four ranges of codes are the four outcomes of `HexVal`, and a digit's value fits 4 bits. -/
theorem hexDigitValues : Obligations.HexDigitValues := by
  intro c
  refine ⟨fun hlo hhi => ⟨_, hexVal_of_decimal hlo hhi, ?_⟩, fun hlo hhi => ⟨_, hexVal_of_upper hlo hhi, ?_⟩,
    fun hlo hhi => ⟨_, hexVal_both_of_lower hlo hhi, ?_⟩, hexVal_eq_none⟩ <;>
  exact (BitVec.toNat_ofNat _ _).trans (Nat.mod_eq_of_lt (by omega))

end

section
/-! SUPPORT. Runs of the decoder with no host move in between: one more step in front, the two folds, and how far a run
in PARSE can go (R138, R280). -/

namespace Sys2Proof.Machine

/-- A run goes on from the state its first step answers. -/
theorem run_succ {s u t : State} {k : Nat} (hstep : step s = .next u) (hrun : Host.Core.run core k u = .next t) :
    Host.Core.run core (k + 1) s = .next t := by
  have hcore : core.step s = .next u := hstep
  simp only [Host.Core.run, hcore]
  exact hrun

/-- A run that came to a state made its first step. -/
theorem exists_step_of_run_succ {s t : State} {k : Nat} (hrun : Host.Core.run core (k + 1) s = .next t) :
    ∃ u, step s = .next u ∧ Host.Core.run core k u = .next t := by
  have hcore : core.step s = step s := rfl
  simp only [Host.Core.run, hcore] at hrun
  cases hstep : step s with
  | next u => rw [hstep] at hrun; exact ⟨u, rfl, hrun⟩
  | fault r => rw [hstep] at hrun; cases hrun
  | refused r => rw [hstep] at hrun; cases hrun

theorem decoderStep_of_parse {s : State} (hphase : s.phase = .parse) : decoderStep s = parseStep s := by
  simp only [decoderStep, hphase]

theorem decoderStep_of_foldV {s : State} (hphase : s.phase = .foldV) : decoderStep s = foldVStep s := by
  simp only [decoderStep, hphase]

theorem decoderStep_of_foldE {s : State} (hphase : s.phase = .foldE) : decoderStep s = foldEStep s := by
  simp only [decoderStep, hphase]

/-- A PARSE step with no turn pending is `parseStep` (R131). -/
theorem step_of_parse {s : State} (hphase : s.phase = .parse) (hturns : s.turns = []) : step s = parseStep s :=
  (step_of_turns_nil hturns).trans (decoderStep_of_parse hphase)

theorem parseStep_of_instr {s : State} {i : Instr} {rest : List Bool}
    (h : decode (s.bits.drop s.cur.toNat) = .instr i rest) : parseStep s = exec i s := by
  simp only [parseStep, State.fetch, h]

theorem parseStep_of_reject {s : State} {r : Reject} (h : decode (s.bits.drop s.cur.toNat) = .reject r) :
    parseStep s = .next (takeReject r s) := by
  simp only [parseStep, State.fetch, h]

/-- Every PARSE step answers a next state. -/
theorem parseStep_next (s : State) : ∃ t, parseStep s = .next t := by
  cases h : decode (s.bits.drop s.cur.toNat) with
  | instr i rest =>
    obtain ⟨t, ht⟩ := exec_next i s
    exact ⟨t, (parseStep_of_instr h).trans ht⟩
  | reject r => exact ⟨_, parseStep_of_reject h⟩

/-! ### The folds (R181, R188) -/

/-- `s` after the FOLD_V step with `p` in `ROOT`. -/
def State.summed (p : Packet) (s : State) : State :=
  { s with vsum := BitVec.ofNat 32 p.vsumOf, vsumValid := true, phase := .foldE }

/-- `s` after both folds with `p` in `ROOT`. -/
def State.folded (p : Packet) (s : State) : State :=
  match p.eval with
  | .ok x => { s.summed p with value := BitVec.ofInt 64 x, valueValid := true, phase := .done }
  | .error e => takeFault e 0#32 (s.summed p)

theorem foldEStep_summed {s : State} {p : Packet} (hroot : s.root = some p) :
    foldEStep (s.summed p) = .next (s.folded p) := by
  have hroot' : (s.summed p).root = some p := hroot
  unfold State.folded
  cases heval : p.eval with
  | ok x => exact foldEStep_of_eval_ok hroot' heval
  | error e => exact foldEStep_of_eval_error hroot' heval

/-- From FOLD_V two steps make both folds. -/
theorem run_folds {s : State} {p : Packet} (hphase : s.phase = .foldV) (hturns : s.turns = [])
    (hroot : s.root = some p) : Host.Core.run core 2 s = .next (s.folded p) := by
  have hfoldV : step s = .next (s.summed p) :=
    (step_of_turns_nil hturns).trans ((decoderStep_of_foldV hphase).trans (foldVStep_of_root hroot))
  have hfoldE : step (s.summed p) = .next (s.folded p) :=
    (step_of_turns_nil (s := s.summed p) hturns).trans (foldEStep_summed hroot)
  exact run_succ hfoldV (run_succ hfoldE rfl)

theorem State.folded_ends (p : Packet) (s : State) : (s.folded p).phase = .done ∨ (s.folded p).phase = .err := by
  unfold State.folded
  split
  · exact .inl rfl
  · exact .inr rfl

section Folded

variable {s : State} {p : Packet}

@[simp] theorem State.folded_cur : (s.folded p).cur = s.cur := by
  unfold State.folded; split <;> rfl

@[simp] theorem State.folded_bits : (s.folded p).bits = s.bits := by
  unfold State.folded; split <;> rfl

@[simp] theorem State.folded_root : (s.folded p).root = s.root := by
  unfold State.folded; split <;> rfl

@[simp] theorem State.folded_vsumValid : (s.folded p).vsumValid = true := by
  unfold State.folded; split <;> rfl

@[simp] theorem State.folded_vsum : (s.folded p).vsum = BitVec.ofNat 32 p.vsumOf := by
  unfold State.folded; split <;> rfl

theorem State.folded_of_ok {x : Int} (h : p.eval = .ok x) :
    s.folded p = { s.summed p with value := BitVec.ofInt 64 x, valueValid := true, phase := .done } := by
  simp only [State.folded, h]

theorem State.folded_of_error {e : ErrCode} (h : p.eval = .error e) : s.folded p = takeFault e 0#32 (s.summed p) := by
  simp only [State.folded, h]

end Folded

/-! ### How long a run can be (R138, R280) -/

/-- A run from PARSE ends after one step for each 11 of the bits that are left and at most two more: a PARSE step that
does not fault moves the cursor by at least 11 bits, and the others are one step that faults or the two folds. -/
theorem State.Inv.parse_run_ends {s : State} (h : s.Inv) (hphase : s.phase = .parse) (hturns : s.turns = []) :
    ∃ k t, 11 * k ≤ s.bits.length - s.cur.toNat + 22 ∧ Host.Core.run core k s = .next t ∧
      (t.phase = .done ∨ t.phase = .err) := by
  induction hleft : s.bits.length - s.cur.toNat using Nat.strong_induction_on generalizing s with
  | _ left ih =>
  obtain ⟨t, hparse⟩ := parseStep_next s
  have hstep : step s = .next t := (step_of_parse hphase hturns).trans hparse
  have hinv := h.parseStep hphase hparse
  obtain ⟨e, pos, -, rfl⟩ | ⟨i, rest, hfetch, hmove⟩ := parseStep_cases hparse
  · exact ⟨1, _, by omega, run_succ hstep rfl, .inr rfl⟩
  · obtain ⟨hlen, hbits⟩ := fetch_bounds h.curRange hfetch
    have hcur := h.curAfter_toNat hbits
    obtain ⟨st, rfl⟩ | ⟨r, rfl⟩ := hmove
    · obtain ⟨k, t, hk, hrun, hend⟩ := ih _ (by dsimp only; omega) hinv hphase hturns rfl
      dsimp only at hk
      exact ⟨k + 1, t, by omega, run_succ hstep hrun, hend⟩
    · exact ⟨3, _, by omega, run_succ hstep (run_folds rfl hturns rfl), State.folded_ends _ _⟩

/-- In UNPACK the parser has not begun: no bits, no frame, no root, the cursor at 0 (R271). -/
theorem State.Inv.of_unpack {s : State} (h : s.Inv) (hphase : s.phase = .unpack) :
    s.clean ∧ s.bits = [] ∧ s.stack = [] ∧ s.root = none ∧ s.cur = 0#32 := by
  simpa [State.phaseFacts, hphase] using h.phase

theorem step_of_unpack {s : State} (hphase : s.phase = .unpack) (hturns : s.turns = []) :
    step s = .next (unpackStep s) := by
  simp only [step_of_turns_nil hturns, decoderStep, hphase]

end Sys2Proof.Machine
end

section

open Sys2Proof Sys2Proof.Machine

/-- Settles O53: one UNPACK step, then a PARSE step that does not fault for each 11 bits at the most, then the step that
faults or the two folds. -/
theorem everyMessageEnds : Obligations.EveryMessageEnds := by
  intro s h hphase hturns
  have hstep := step_of_unpack hphase hturns
  have hinv := h.unpackStep hphase
  cases hunpack : unpackFrom s s.inlen.toNat 0 with
  | invalid i =>
    rw [unpackStep_of_invalid hunpack] at hstep
    exact ⟨1, _, by omega, run_succ hstep rfl, .inr rfl⟩
  | bits bs =>
    rw [unpackStep_of_bits hunpack] at hstep hinv
    have hlen := unpackFrom_length hunpack
    obtain ⟨k, t, hk, hrun, hend⟩ := hinv.parse_run_ends rfl hturns
    dsimp only at hk
    exact ⟨k + 1, t, by omega, run_succ hstep hrun, hend⟩

end

section
/-! SUPPORT. The stack machine against the source's recursive parse (R139). Every call of the recursive parse stands for a
run of PARSE steps: where the call answers a packet, the run comes to what `Deliver` of that packet makes of the frames
outside it; where it answers a fault, the run takes that fault. -/

namespace Sys2Proof.Machine

/-! ### Runs of any length -/

/-- Some number of steps lead from `s` to `t`. -/
def Reaches (s t : State) : Prop := ∃ k, Host.Core.run core k s = .next t

theorem Reaches.refl (s : State) : Reaches s s := ⟨0, rfl⟩

theorem Reaches.head {s u t : State} (hstep : step s = .next u) (h : Reaches u t) : Reaches s t := by
  obtain ⟨k, hrun⟩ := h
  exact ⟨k + 1, run_succ hstep hrun⟩

theorem Reaches.single {s t : State} (hstep : step s = .next t) : Reaches s t := .head hstep (.refl t)

theorem Reaches.trans {s u t : State} (h : Reaches s u) (h' : Reaches u t) : Reaches s t := by
  obtain ⟨k, hrun⟩ := h
  induction k generalizing s with
  | zero => cases hrun; exact h'
  | succ k ih =>
    obtain ⟨v, hstep, hrun⟩ := exists_step_of_run_succ hrun
    exact .head hstep (ih hrun)

/-- The invariant holds of every state that a run from a state with it comes to. -/
theorem Reaches.inv {s t : State} (h : Reaches s t) (hinv : s.Inv) : t.Inv := by
  obtain ⟨k, hrun⟩ := h
  induction k generalizing s with
  | zero => cases hrun; exact hinv
  | succ k ih =>
    obtain ⟨u, hstep, hrun⟩ := exists_step_of_run_succ hrun
    exact ih (everyStepKeepsTheInvariant s u hinv hstep) hrun

/-! ### Deliver, one equation for each outcome at a frame (R133) -/

section Deliver

variable {cur : Pos} {f : Frame} (rest : List Frame) (p : Packet)

theorem deliverTo_region_past {stop : Pos} (he : f.extent = .region stop) (h : stop < cur) :
    deliverTo cur (f :: rest) p = .overshoot f.start := by
  simp only [deliverTo, he, if_pos h]

theorem deliverTo_region_open {stop : Pos} (he : f.extent = .region stop) (h : cur < stop) :
    deliverTo cur (f :: rest) p = .waiting (f.append p :: rest) := by
  have hnot : ¬stop < cur := BitVec.not_lt.mpr (BitVec.le_of_lt h)
  simp only [deliverTo, he, if_neg hnot, if_pos h]

theorem deliverTo_region_full (he : f.extent = .region cur) :
    deliverTo cur (f :: rest) p = deliverTo cur rest (f.append p).close := by
  have hnot : ¬cur < cur := BitVec.lt_irrefl cur
  simp only [deliverTo, he, if_neg hnot]

theorem deliverTo_count_open {left : Count} (he : f.extent = .count left) (h : 1 < left.toNat) :
    deliverTo cur (f :: rest) p = .waiting ({ f.append p with extent := .count (left - 1#11) } :: rest) := by
  simp only [deliverTo, he, if_pos h]

theorem deliverTo_count_last {left : Count} (he : f.extent = .count left) (h : ¬1 < left.toNat) :
    deliverTo cur (f :: rest) p = deliverTo cur rest (f.append p).close := by
  simp only [deliverTo, he, if_neg h]

end Deliver

/-! ### What a run owes a call of the recursive parse -/

/-- `s` in the middle of the parse: the cursor at `pos`, the frames `stack`. -/
def State.parsingAt (s : State) (pos : Nat) (stack : List Frame) : State :=
  { s with cur := BitVec.ofNat 32 pos, stack := stack }

/-- From `u` the parse of `s` takes the fault `e` at `pos`. -/
def FaultsAt (s u : State) (e : ErrCode) (pos : Nat) : Prop :=
  ∃ cur stack, ∃ a : Pos, a.toNat = pos ∧ Reaches u (takeFault e a (s.parsingAt cur stack))

/-- From `u` the parse of `s` comes to an answer of `Deliver` with the cursor at `pos` (R133, R134). -/
def Arrives (s u : State) (pos : Nat) : Delivered → Prop
  | .waiting stack => Reaches u (s.parsingAt pos stack)
  | .root p => Reaches u { s.parsingAt pos [] with root := some p, phase := .foldV }
  | .overshoot start => FaultsAt s u .malformedLength start.toNat

/-- From `u`, at position `pos` of `s`, the run does what the recursive parse answers, with the frames `outer` outside
the packet it parses. -/
def Agrees (s u : State) (outer : List Frame) (pos : Nat) : Parsed → Prop
  | .ok pos' p => pos < pos' ∧ pos' ≤ s.bits.length ∧ Arrives s u pos' (deliverTo (BitVec.ofNat 32 pos') outer p)
  | .fault e a => FaultsAt s u e a
  | .outOfFuel => False

theorem FaultsAt.head {s u u' : State} {e : ErrCode} {pos : Nat} (hr : Reaches u u') (h : FaultsAt s u' e pos) :
    FaultsAt s u e pos := by
  obtain ⟨cur, stack, a, ha, hreach⟩ := h
  exact ⟨cur, stack, a, ha, hr.trans hreach⟩

theorem Arrives.head {s u u' : State} {pos : Nat} {d : Delivered} (hr : Reaches u u') (h : Arrives s u' pos d) :
    Arrives s u pos d := by
  cases d with
  | waiting stack => exact hr.trans h
  | root p => exact hr.trans h
  | overshoot start => exact FaultsAt.head hr h

/-- What holds after a run that moved the cursor forward holds before it. -/
theorem Agrees.head {s u u' : State} {outer : List Frame} {pos mid : Nat} {r : Parsed} (hr : Reaches u u')
    (hle : pos ≤ mid) (h : Agrees s u' outer mid r) : Agrees s u outer pos r := by
  cases r with
  | ok pos' p =>
    obtain ⟨hlt, hbits, harr⟩ := h
    exact ⟨Nat.lt_of_le_of_lt hle hlt, hbits, harr.head hr⟩
  | fault e a => exact FaultsAt.head hr h
  | outOfFuel => exact h

section Simulation

variable {s : State}

/-- A packet call with bound `fuel` agrees with the run from every position and every stack. -/
def PacketAgrees (s : State) (fuel : Nat) : Prop :=
  ∀ pos outer, pos ≤ s.bits.length → s.bits.length < pos + fuel →
    Agrees s (s.parsingAt pos outer) outer pos (parsePacket s.params.maxDepth s.bits fuel outer.length pos)

/-- So does a total-length call, from a stack with its frame on top. -/
def RegionAgrees (s : State) (fuel : Nat) : Prop :=
  ∀ (k : OpKind) (v : Version) (start stop : Pos) (subs : List Packet) (pos : Nat) (outer : List Frame),
    pos ≤ s.bits.length → s.bits.length + 1 < pos + fuel →
    Agrees s (s.parsingAt pos ({ ver := v, typeId := k.typeId, extent := .region stop, start, subs } :: outer)) outer pos
      (parseRegion s.params.maxDepth s.bits fuel (outer.length + 1) k v start.toNat stop.toNat pos subs)

/-- So does a count call. -/
def CountedAgrees (s : State) (fuel : Nat) : Prop :=
  ∀ (k : OpKind) (v : Version) (start : Pos) (left : Count) (subs : List Packet) (pos : Nat) (outer : List Frame),
    pos ≤ s.bits.length → s.bits.length + 1 < pos + fuel →
    Agrees s (s.parsingAt pos ({ ver := v, typeId := k.typeId, extent := .count left, start, subs } :: outer)) outer pos
      (parseCounted s.params.maxDepth s.bits fuel (outer.length + 1) k v left.toNat pos subs)

/-- A total-length call (R133): the next sub-packet's end lies past the region, before its end, or on it. -/
theorem regionAgrees_succ {fuel : Nat} (hsize : s.bits.length ≤ 2 ^ 30) (hpacket : PacketAgrees s fuel)
    (hregion : RegionAgrees s fuel) : RegionAgrees s (fuel + 1) := by
  intro k v start stop subs pos outer hle hfuel
  have hsub := hpacket pos ({ ver := v, typeId := k.typeId, extent := .region stop, start, subs } :: outer) hle
    (by omega)
  rw [parseRegion]
  rw [List.length_cons] at hsub
  cases hp : parsePacket s.params.maxDepth s.bits fuel (outer.length + 1) pos with
  | fault e a => rw [hp] at hsub; exact hsub
  | outOfFuel => rw [hp] at hsub; exact hsub
  | ok pos' p =>
    rw [hp] at hsub
    obtain ⟨hlt, hbits, harr⟩ := hsub
    have hpos' : (BitVec.ofNat 32 pos').toNat = pos' := by
      rw [BitVec.toNat_ofNat]
      omega
    dsimp only
    split
    · rename_i hpast
      rw [deliverTo_region_past (stop := stop) outer p rfl (by rwa [BitVec.lt_def, hpos'])] at harr
      exact harr
    · split
      · rename_i hopen
        rw [deliverTo_region_open (stop := stop) outer p rfl (by rwa [BitVec.lt_def, hpos'])] at harr
        exact (hregion k v start stop (subs ++ [p]) pos' outer hbits (by omega)).head harr hlt.le
      · have hfull : stop = BitVec.ofNat 32 pos' := by
          apply BitVec.eq_of_toNat_eq
          omega
        rw [deliverTo_region_full outer p (congrArg Extent.region hfull)] at harr
        exact ⟨hlt, hbits, harr⟩

/-- A count call (R133): the next sub-packet is the last or one of more to come. -/
theorem countedAgrees_succ {fuel : Nat} (hpacket : PacketAgrees s fuel) (hcounted : CountedAgrees s fuel) :
    CountedAgrees s (fuel + 1) := by
  intro k v start left subs pos outer hle hfuel
  have hsub := hpacket pos ({ ver := v, typeId := k.typeId, extent := .count left, start, subs } :: outer) hle
    (by omega)
  rw [parseCounted]
  rw [List.length_cons] at hsub
  cases hp : parsePacket s.params.maxDepth s.bits fuel (outer.length + 1) pos with
  | fault e a => rw [hp] at hsub; exact hsub
  | outOfFuel => rw [hp] at hsub; exact hsub
  | ok pos' p =>
    rw [hp] at hsub
    obtain ⟨hlt, hbits, harr⟩ := hsub
    dsimp only
    split
    · rename_i hmore
      have hleft : (left - 1#11).toNat = left.toNat - 1 := by bv_omega
      rw [deliverTo_count_open (left := left) outer p rfl hmore] at harr
      have hcall := hcounted k v start (left - 1#11) (subs ++ [p]) pos' outer hbits (by omega)
      rw [hleft] at hcall
      exact hcall.head harr hlt.le
    · rename_i hlast
      rw [deliverTo_count_last (left := left) outer p rfl hlast] at harr
      exact ⟨hlt, hbits, harr⟩

@[simp] theorem parsingAt_stack (pos : Nat) (outer : List Frame) : (s.parsingAt pos outer).stack = outer := rfl

@[simp] theorem parsingAt_bits (pos : Nat) (outer : List Frame) : (s.parsingAt pos outer).bits = s.bits := rfl

theorem parsingAt_cur {pos : Nat} (outer : List Frame) (hpos : pos < 2 ^ 32) : (s.parsingAt pos outer).cur.toNat = pos :=
  (BitVec.toNat_ofNat _ _).trans (Nat.mod_eq_of_lt hpos)

theorem parsingAt_curAfter (pos n : Nat) (outer : List Frame) :
    (s.parsingAt pos outer).curAfter n = BitVec.ofNat 32 (pos + n) := by
  rw [BitVec.ofNat_add]
  rfl

variable (hphase : s.phase = .parse) (hturns : s.turns = []) (hsize : s.bits.length ≤ 2 ^ 30)
include hphase hturns

theorem step_parsingAt (pos : Nat) (outer : List Frame) :
    step (s.parsingAt pos outer) = parseStep (s.parsingAt pos outer) :=
  step_of_parse (s := s.parsingAt pos outer) hphase hturns

/-- A PARSE step that faults at the packet's first bit. -/
theorem faultsAt_of_takeFault {pos : Nat} {outer : List Frame} {e : ErrCode} (hpos : pos < 2 ^ 32)
    (hstep : parseStep (s.parsingAt pos outer) =
      .next (takeFault e (s.parsingAt pos outer).cur (s.parsingAt pos outer))) :
    FaultsAt s (s.parsingAt pos outer) e pos :=
  ⟨pos, outer, _, parsingAt_cur outer hpos, .single ((step_parsingAt hphase hturns pos outer).trans hstep)⟩

/-- A PARSE step that delivers a packet. -/
theorem arrives_of_deliver {pos pos' : Nat} {outer : List Frame} {p : Packet}
    (hstep : parseStep (s.parsingAt pos outer) = .next (deliver p (BitVec.ofNat 32 pos') (s.parsingAt pos outer))) :
    Arrives s (s.parsingAt pos outer) pos' (deliverTo (BitVec.ofNat 32 pos') outer p) := by
  have hreach := Reaches.single ((step_parsingAt hphase hturns pos outer).trans hstep)
  obtain ⟨st, hd, heq⟩ | ⟨r, hd, heq⟩ | ⟨a, hd, heq⟩ := deliver_cases p (BitVec.ofNat 32 pos') (s.parsingAt pos outer)
  all_goals
    rw [heq] at hreach
    rw [parsingAt_stack] at hd
    rw [hd]
  · exact hreach
  · exact hreach
  · exact ⟨pos, outer, a, rfl, hreach⟩

/-- A PARSE step that pushes a frame. -/
theorem reaches_of_pushFrame {pos n : Nat} {outer : List Frame} {f : Frame}
    (hstep : parseStep (s.parsingAt pos outer) = .next (pushFrame f n (s.parsingAt pos outer))) :
    Reaches (s.parsingAt pos outer) (s.parsingAt (pos + n) (f :: outer)) := by
  have hreach := Reaches.single ((step_parsingAt hphase hturns pos outer).trans hstep)
  rwa [pushFrame, parsingAt_curAfter] at hreach

include hsize

/-- A total-length head (R161): the two faults at its first bit, or the region call with the frame pushed. -/
theorem totalHead_agrees {fuel pos : Nat} {outer : List Frame} {k : OpKind} {v : Version} {l : Length}
    (hregion : RegionAgrees s fuel) (hbits : pos + 22 ≤ s.bits.length) (hfuel : s.bits.length < pos + (fuel + 1))
    (hstep : parseStep (s.parsingAt pos outer) = headL k v l (s.parsingAt pos outer)) :
    Agrees s (s.parsingAt pos outer) outer pos
      (if l = 0#15 then .fault .malformedLength pos
      else if s.params.maxDepth ≤ outer.length then .fault .recursionLimitExceeded pos
      else parseRegion s.params.maxDepth s.bits fuel (outer.length + 1) k v pos (pos + 22 + l.toNat) (pos + 22) []) := by
  have hpos : pos < 2 ^ 32 := by omega
  have hcur : (s.parsingAt pos outer).cur.toNat = pos := parsingAt_cur outer hpos
  obtain ⟨hl, heq⟩ | ⟨hl, hd, heq⟩ | ⟨hl, hd, heq⟩ := headL_cases k v l (s.parsingAt pos outer)
  all_goals rw [heq] at hstep
  · rw [if_pos hl]
    exact faultsAt_of_takeFault hphase hturns hpos hstep
  · have hdeep : s.params.maxDepth ≤ outer.length := hd
    rw [if_neg hl, if_pos hdeep]
    exact faultsAt_of_takeFault hphase hturns hpos hstep
  · have hroom : ¬s.params.maxDepth ≤ outer.length := Nat.not_le_of_lt hd
    have hstop : (regionEnd (s.parsingAt pos outer).cur l).toNat = pos + 22 + l.toNat := by
      have := l.isLt
      simp only [regionEnd, BitVec.toNat_add, BitVec.toNat_ofNat, BitVec.toNat_setWidth, hcur]
      omega
    have hcall := hregion k v (s.parsingAt pos outer).cur (regionEnd (s.parsingAt pos outer).cur l) [] (pos + 22)
      outer hbits (by omega)
    rw [hcur, hstop] at hcall
    rw [if_neg hl, if_neg hroom]
    exact hcall.head (reaches_of_pushFrame hphase hturns hstep) (by omega)

/-- A count head (R162): the two faults at its first bit, or the count call with the frame pushed. -/
theorem countedHead_agrees {fuel pos : Nat} {outer : List Frame} {k : OpKind} {v : Version} {n : Count}
    (hcounted : CountedAgrees s fuel) (hbits : pos + 18 ≤ s.bits.length) (hfuel : s.bits.length < pos + (fuel + 1))
    (hstep : parseStep (s.parsingAt pos outer) = headN k v n (s.parsingAt pos outer)) :
    Agrees s (s.parsingAt pos outer) outer pos
      (if n = 0#11 then .fault .malformedLength pos
      else if s.params.maxDepth ≤ outer.length then .fault .recursionLimitExceeded pos
      else parseCounted s.params.maxDepth s.bits fuel (outer.length + 1) k v n.toNat (pos + 18) []) := by
  have hpos : pos < 2 ^ 32 := by omega
  obtain ⟨hn, heq⟩ | ⟨hn, hd, heq⟩ | ⟨hn, hd, heq⟩ := headN_cases k v n (s.parsingAt pos outer)
  all_goals rw [heq] at hstep
  · rw [if_pos hn]
    exact faultsAt_of_takeFault hphase hturns hpos hstep
  · have hdeep : s.params.maxDepth ≤ outer.length := hd
    rw [if_neg hn, if_pos hdeep]
    exact faultsAt_of_takeFault hphase hturns hpos hstep
  · have hroom : ¬s.params.maxDepth ≤ outer.length := Nat.not_le_of_lt hd
    have hcall := hcounted k v (s.parsingAt pos outer).cur n [] (pos + 18) outer hbits (by omega)
    rw [if_neg hn, if_neg hroom]
    exact hcall.head (reaches_of_pushFrame hphase hturns hstep) (by omega)

/-- A packet call (R130): its head is decoded by one PARSE step, and what follows an operator's head is a region or a
count call with the frame pushed. -/
theorem packetAgrees_succ {fuel : Nat} (hregion : RegionAgrees s fuel) (hcounted : CountedAgrees s fuel) :
    PacketAgrees s (fuel + 1) := by
  intro pos outer hle hfuel
  have hpos : pos < 2 ^ 32 := by omega
  have hcur : (s.parsingAt pos outer).cur.toNat = pos := parsingAt_cur outer hpos
  have hfetch : (s.parsingAt pos outer).fetch = decode (s.bits.drop pos) := by
    rw [State.fetch, hcur, parsingAt_bits]
  rw [parsePacket]
  cases hdec : decode (s.bits.drop pos) with
  | reject r =>
    have hstep := parseStep_of_reject (hfetch.trans hdec)
    cases r with
    | endOfBits => exact faultsAt_of_takeFault hphase hturns hpos hstep
    | literalOverflow => exact faultsAt_of_takeFault hphase hturns hpos hstep
  | instr i rest =>
    have hstep := parseStep_of_instr (hfetch.trans hdec)
    obtain ⟨-, hbits⟩ := fetch_bounds (hcur.trans_le hle) (hfetch.trans hdec)
    rw [hcur, parsingAt_bits] at hbits
    rw [exec_eq_form] at hstep
    unfold Instr.headBits at hbits
    cases hform : i.form with
    | literal v gs =>
      simp only [hform, execLit] at hstep hbits ⊢
      cases hval : literalValue gs with
      | none =>
        rw [hval] at hstep
        exact faultsAt_of_takeFault hphase hturns hpos hstep
      | some x =>
        simp only [hval, parsingAt_curAfter] at hstep
        exact ⟨by omega, hbits, arrives_of_deliver hphase hturns hstep⟩
    | total k v l =>
      simp only [hform] at hstep hbits ⊢
      exact totalHead_agrees hphase hturns hsize hregion hbits hfuel hstep
    | counted k v n =>
      simp only [hform] at hstep hbits ⊢
      exact countedHead_agrees hphase hturns hsize hcounted hbits hfuel hstep

/-- Every call of the recursive parse agrees with the run, by induction on the recursion bound: a bound that passes the
number of bits left is never met, since each packet takes bits. -/
theorem calls_agree (fuel : Nat) : PacketAgrees s fuel ∧ RegionAgrees s fuel ∧ CountedAgrees s fuel := by
  induction fuel with
  | zero =>
    refine ⟨fun pos outer hle hfuel => ?_, fun k v start stop subs pos outer hle hfuel => ?_,
      fun k v start left subs pos outer hle hfuel => ?_⟩ <;> omega
  | succ fuel ih =>
    obtain ⟨hpacket, hregion, hcounted⟩ := ih
    exact ⟨packetAgrees_succ hphase hturns hsize hregion hcounted, regionAgrees_succ hsize hpacket hregion,
      countedAgrees_succ hpacket hcounted⟩

end Simulation

/-- The run from the first bit agrees with the contract's one call per message (R130). -/
theorem State.Inv.agrees_parseMessage {s : State} (h : s.Inv) (hphase : s.phase = .parse) (hturns : s.turns = [])
    (hcur : s.cur = 0#32) (hstack : s.stack = []) : Agrees s s [] 0 (parseMessage s.params.maxDepth s.bits) := by
  have hcall := (calls_agree hphase hturns h.bits_le (2 * s.bits.length + 2)).1 0 [] (Nat.zero_le _) (by omega)
  have hstart : s.parsingAt 0 [] = s := by
    rw [State.parsingAt, ← hcur, ← hstack]
  rwa [hstart] at hcall

end Sys2Proof.Machine
end

section

open Sys2Proof Sys2Proof.Machine

/-- Settles O54: by the agreement of every call of the recursive parse with a run; with no frame outside it, `Deliver`
makes the packet the root. -/
theorem stackMachineAgreesWithRecursiveParse : Obligations.StackMachineAgreesWithRecursiveParse := by
  intro s h hphase hturns hcur hstack
  have hagrees := h.agrees_parseMessage hphase hturns hcur hstack
  cases hparse : parseMessage s.params.maxDepth s.bits with
  | ok n p =>
    rw [hparse] at hagrees
    obtain ⟨-, hbits, k, hrun⟩ := hagrees
    refine ⟨k, _, hrun, ?_, hbits⟩
    rw [State.parsingAt, hstack]
  | fault e pos =>
    rw [hparse] at hagrees
    obtain ⟨cur, stack, a, ha, k, hrun⟩ := hagrees
    obtain ⟨⟨-, -, hvv, -, hav, -⟩, -, hroot⟩ := h.of_parse hphase
    exact ⟨k, _, hrun, rfl, rfl, ha, hvv, hav, hroot, rfl⟩
  | outOfFuel => rw [hparse] at hagrees; exact hagrees.elim

end

section
/-! SUPPORT. Where unpacking stops is an index below `INLEN` (R123). -/

namespace Sys2Proof.Machine

/-- An invalid character is one of those unpacked. -/
theorem unpackFrom_invalid_lt {s : State} {n i j : Nat} (h : unpackFrom s n i = .invalid j) : j < i + n := by
  induction n generalizing i with
  | zero => simp [unpackFrom] at h
  | succ n ih =>
    unfold unpackFrom at h
    split at h
    · cases h
      omega
    · split at h
      · rename_i hrest
        cases h
        have := ih hrest
        omega
      · cases h

end Sys2Proof.Machine
end

section

open Sys2Proof Sys2Proof.Machine

/-- Settles O55: the UNPACK step, then the run that agrees with the recursive parse, then the two folds of its tree. -/
theorem messageRunMeetsTheSourceContract : Obligations.MessageRunMeetsTheSourceContract := by
  intro s h hphase hturns
  obtain ⟨⟨-, -, hvv, -, hav, -⟩, -, hstack, -, hcur⟩ := h.of_unpack hphase
  have hunpackStep := step_of_unpack hphase hturns
  have hinv := h.unpackStep hphase
  cases hunpack : unpackFrom s s.inlen.toNat 0 with
  | invalid i =>
    rw [unpackStep_of_invalid hunpack] at hunpackStep
    have hi := unpackFrom_invalid_lt hunpack
    have := s.inlen.isLt
    exact ⟨1, _, run_succ hunpackStep rfl, rfl, rfl, (BitVec.toNat_ofNat _ _).trans (Nat.mod_eq_of_lt (by omega))⟩
  | bits bs =>
    rw [unpackStep_of_bits hunpack] at hunpackStep hinv
    have hagrees := hinv.agrees_parseMessage rfl hturns hcur hstack
    have hreach := Reaches.single hunpackStep
    dsimp only at hagrees ⊢
    cases hparse : parseMessage s.params.maxDepth bs with
    | outOfFuel => rw [hparse] at hagrees; exact hagrees.elim
    | fault e pos =>
      rw [hparse] at hagrees
      obtain ⟨cur, stack, a, ha, hfault⟩ := hagrees
      obtain ⟨k, hrun⟩ := hreach.trans hfault
      exact ⟨k, _, hrun, rfl, rfl, rfl, ha, hvv⟩
    | ok n p =>
      rw [hparse] at hagrees
      obtain ⟨-, hbits, hroot⟩ := hagrees
      have hroot := hreach.trans hroot
      obtain ⟨k, hrun⟩ := hroot.trans ⟨2, run_folds rfl hturns rfl⟩
      have hvsum := (hroot.inv h).vsum_toNat (p := p) rfl
      have hn : (BitVec.ofNat 32 n).toNat = n := by
        have := hinv.bits_le
        rw [BitVec.toNat_ofNat]
        omega
      refine ⟨k, _, hrun, State.folded_bits, ?_, State.folded_root, State.folded_vsumValid, ?_, ?_⟩
      · rw [State.folded_cur]
        exact hn
      · rw [State.folded_vsum, hvsum]
      · cases heval : p.eval with
        | ok x =>
          rw [State.folded_of_ok heval]
          exact ⟨rfl, rfl, toInt_ofInt_of_eval heval⟩
        | error e =>
          rw [State.folded_of_error heval]
          exact ⟨rfl, rfl, hav⟩

end

section
/-! SUPPORT. LIT where its end closes frames (R133): the frames it completes fall away one after another, and the first
that it does not complete decides the outcome. Then what an instruction can do at all, heads that are cut, and bits that
no step reads. -/

namespace Sys2Proof.Machine

/-- A literal in range is delivered with the cursor past it (R150). -/
theorem exec_lit_of_lt {v : Version} {gs : List Nibble} {s : State} (h : groupsNumber gs < 2 ^ 63) :
    exec (.lit v gs) s =
      .next (deliver (.literal v (BitVec.ofNat 64 (groupsNumber gs))) (s.cur + BitVec.ofNat 32 (6 + 5 * gs.length)) s) := by
  obtain ⟨hge, -⟩ | ⟨-, heq⟩ := execLit_cases v gs s
  · omega
  · exact heq

section Deliver

variable {p : Packet} {cur : Pos} {s : State}

theorem deliver_of_waiting {st : List Frame} (h : deliverTo cur s.stack p = .waiting st) :
    deliver p cur s = { s with cur := cur, stack := st } := by
  simp only [deliver, h]

theorem deliver_of_root {r : Packet} (h : deliverTo cur s.stack p = .root r) :
    deliver p cur s = { s with cur := cur, stack := [], root := some r, phase := .foldV } := by
  simp only [deliver, h]

theorem deliver_of_overshoot {start : Pos} (h : deliverTo cur s.stack p = .overshoot start) :
    deliver p cur s = takeFault .malformedLength start s := by
  simp only [deliver, h]

end Deliver

/-- The packet that closing `frames`, the innermost first, makes of `p` (R133, R168). -/
def closeAll (frames : List Frame) (p : Packet) : Packet := frames.foldl (fun p f => (f.append p).close) p

/-- A delivery at `cur` completes the frame: its region ends there, or one sub-packet is to come (R133). -/
def Frame.ClosesAt (cur : Pos) (f : Frame) : Prop := f.extent = .region cur ∨ f.extent = .count 1#11

/-- `Deliver` passes the frames it completes and delivers what they make to the frames outside them. -/
theorem deliverTo_closed {cur : Pos} {closed : List Frame} (h : ∀ f ∈ closed, f.ClosesAt cur) (rest : List Frame)
    (p : Packet) : deliverTo cur (closed ++ rest) p = deliverTo cur rest (closeAll closed p) := by
  induction closed generalizing p with
  | nil => rfl
  | cons f closed ih =>
    obtain ⟨hf, hclosed⟩ := List.forall_mem_cons.mp h
    have hpass : deliverTo cur (f :: (closed ++ rest)) p = deliverTo cur (closed ++ rest) (f.append p).close := by
      obtain he | he := hf
      · exact deliverTo_region_full _ p he
      · exact deliverTo_count_last _ p he (by decide)
    exact hpass.trans (ih hclosed _)

/-- With every open frame completed the packet is the root (R134). -/
theorem deliverTo_closed_all {cur : Pos} {stack : List Frame} (h : ∀ f ∈ stack, f.ClosesAt cur) (p : Packet) :
    deliverTo cur stack p = .root (closeAll stack p) := by
  have := deliverTo_closed h [] p
  rwa [List.append_nil] at this

/-! ### What an instruction does to the state -/

/-- Everything an instruction can do (R133, R137, R161, R162, R222): a fault that keeps all its writes back; a literal's
move past itself with frames closed, perhaps the last one; an operator's push of one frame. -/
theorem exec_cases {i : Instr} {s t : State} (hstep : exec i s = .next t) :
    (∃ e pos, t = takeFault e pos s) ∨
    (∃ v gs, i = .lit v gs ∧
      ((∃ st, t = { s with cur := s.curAfter i.headBits, stack := st }) ∨
        ∃ r, t = { s with cur := s.curAfter i.headBits, stack := [], root := some r, phase := .foldV })) ∨
    ∃ f, t = pushFrame f i.headBits s := by
  rw [exec_eq_form] at hstep
  induction i using Instr.form_induction with
  | lit v gs =>
    obtain ⟨-, heq⟩ | ⟨-, heq⟩ := execLit_cases v gs s <;> cases heq.symm.trans hstep
    · exact .inl ⟨_, _, rfl⟩
    · obtain ⟨st, -, heq⟩ | ⟨r, -, heq⟩ | ⟨a, -, heq⟩ :=
        deliver_cases (.literal v (BitVec.ofNat 64 (groupsNumber gs))) (s.curAfter (6 + 5 * gs.length)) s
      · exact .inr (.inl ⟨v, gs, rfl, .inl ⟨st, heq⟩⟩)
      · exact .inr (.inl ⟨v, gs, rfl, .inr ⟨r, heq⟩⟩)
      · exact .inl ⟨_, a, heq⟩
  | total k v l =>
    rw [Instr.form_ofTotal] at hstep
    rw [Instr.headBits, Instr.form_ofTotal]
    obtain ⟨-, heq⟩ | ⟨-, -, heq⟩ | ⟨-, -, heq⟩ := headL_cases k v l s <;> cases heq.symm.trans hstep
    · exact .inl ⟨_, _, rfl⟩
    · exact .inl ⟨_, _, rfl⟩
    · exact .inr (.inr ⟨_, rfl⟩)
  | counted k v n =>
    rw [Instr.form_ofCount] at hstep
    rw [Instr.headBits, Instr.form_ofCount]
    obtain ⟨-, heq⟩ | ⟨-, -, heq⟩ | ⟨-, -, heq⟩ := headN_cases k v n s <;> cases heq.symm.trans hstep
    · exact .inl ⟨_, _, rfl⟩
    · exact .inl ⟨_, _, rfl⟩
    · exact .inr (.inr ⟨_, rfl⟩)

/-! ### Short heads (R131, R160 to R162) -/

theorem decode_of_short {bs : List Bool} (h : bs.length < 6) : decode bs = .reject .endOfBits := by
  simp only [decode, readField_eq_none.mpr h]

/-- An operator's head is cut before its flag, or in the field its flag asks for. -/
theorem decodeOperator_of_short {k : OpKind} {v : Version} {tail : List Bool}
    (h : tail = [] ∨ (tail.head? = some false ∧ tail.length < 16) ∨ (tail.head? = some true ∧ tail.length < 12)) :
    decodeOperator k v tail = .reject .endOfBits := by
  obtain rfl | ⟨hhead, hlen⟩ | ⟨hhead, hlen⟩ := h
  · rfl
  · obtain ⟨rest, rfl⟩ := List.head?_eq_some_iff.mp hhead
    have hflag : readField 1 (false :: rest) = some (0#1, rest) := readField_flag false rest
    have hfield : readField 15 rest = none := readField_eq_none.mpr (Nat.lt_of_succ_lt_succ hlen)
    simp [decodeOperator, hflag, hfield]
  · obtain ⟨rest, rfl⟩ := List.head?_eq_some_iff.mp hhead
    have hflag : readField 1 (true :: rest) = some (1#1, rest) := readField_flag true rest
    have hfield : readField 11 rest = none := readField_eq_none.mpr (Nat.lt_of_succ_lt_succ hlen)
    simp [decodeOperator, hflag, hfield]

/-! ### More bits at the end (R135, U13) -/

/-- `s` with other bits. -/
def State.withBits (bs : List Bool) (s : State) : State := { s with bits := bs }

theorem deliver_withBits (bs : List Bool) (p : Packet) (cur : Pos) (s : State) :
    deliver p cur (s.withBits bs) = (deliver p cur s).withBits bs := by
  unfold deliver
  rw [show (s.withBits bs).stack = s.stack from rfl]
  cases deliverTo cur s.stack p <;> rfl

theorem execLit_withBits (bs : List Bool) (v : Version) (gs : List Nibble) (s : State) :
    execLit v gs (s.withBits bs) = mapNext (State.withBits bs) (execLit v gs s) := by
  unfold execLit
  cases literalValue gs with
  | none => rfl
  | some x => exact congrArg Host.Outcome.next (deliver_withBits bs _ _ s)

/-- An instruction's meaning reads no bit: what it needs of `BITS` the decoder has read (R131). -/
theorem exec_withBits (bs : List Bool) (i : Instr) (s : State) :
    exec i (s.withBits bs) = mapNext (State.withBits bs) (exec i s) := by
  rw [exec_eq_form, exec_eq_form]
  cases i.form with
  | literal v gs => exact execLit_withBits bs v gs s
  | total k v l =>
    simp only [headL, apply_ite (mapNext (State.withBits bs))]
    rfl
  | counted k v n =>
    simp only [headN, apply_ite (mapNext (State.withBits bs))]
    rfl

/-- A head that decodes does so with more bits behind it, to the same instruction (R71, R135). -/
theorem decode_append {bs rest : List Bool} {i : Instr} (h : decode bs = .instr i rest) (extra : List Bool) :
    decode (bs ++ extra) = .instr i (rest ++ extra) := by
  obtain ⟨henc, rfl⟩ := decode_eq_instr h
  rw [List.append_assoc]
  exact decode_encode henc _

/-- A PARSE step that does not fault does the same with more bits at the end. -/
theorem parseStep_withBits_append {s t : State} (hstep : parseStep s = .next t) (hne : t.phase ≠ .err)
    (extra : List Bool) : parseStep (s.withBits (s.bits ++ extra)) = .next (t.withBits (s.bits ++ extra)) := by
  cases hdec : decode (s.bits.drop s.cur.toNat) with
  | reject r =>
    rw [parseStep_of_reject hdec] at hstep
    cases hstep
    cases r <;> exact absurd rfl hne
  | instr i rest =>
    have hle : s.cur.toNat ≤ s.bits.length := by
      by_contra hpast
      rw [List.drop_eq_nil_of_le (by omega), decode_of_short (by simp)] at hdec
      cases hdec
    have hdec' : decode ((s.bits ++ extra).drop s.cur.toNat) = .instr i (rest ++ extra) := by
      rw [List.drop_append_of_le_length hle]
      exact decode_append hdec extra
    rw [parseStep_of_instr hdec] at hstep
    rw [parseStep_of_instr (s := s.withBits (s.bits ++ extra)) hdec', exec_withBits, hstep]
    rfl

end Sys2Proof.Machine
end

section

open Sys2Proof Sys2Proof.Machine

/-- Settles O20: the header, or the operator's field after its flag, is not there to be read. -/
theorem shortHeadFaults : Obligations.ShortHeadFaults := by
  intro s hphase hturns
  have hshort (h : decode (s.bits.drop s.cur.toNat) = .reject .endOfBits) :
      step s = .next { s with phase := .err, errcode := .unexpectedEndOfBits, errpos := s.cur } :=
    (step_of_parse hphase hturns).trans (parseStep_of_reject h)
  refine ⟨fun hlen => hshort (decode_of_short hlen), fun v k tail hbits htail => hshort ?_⟩
  rw [hbits, decode_operator_header, decodeOperator_of_short htail]

/-- Settles O23: the head decodes to the same instruction, whose meaning reads no bit; the folds read none either. -/
theorem trailingBitsDoNotMatter : Obligations.TrailingBitsDoNotMatter := by
  intro s t extra hphase hturns hstep hne
  rw [step_of_turns_nil hturns] at hstep
  have hbits : t.bits = s.bits := decoderStep_bits hstep (by rintro hp; simp [hp] at hphase)
  rw [hbits]
  refine (step_of_turns_nil (s := s.withBits (s.bits ++ extra)) hturns).trans ?_
  obtain hp | hp | hp := hphase
  · rw [decoderStep_of_parse hp] at hstep
    rw [decoderStep_of_parse (s := s.withBits (s.bits ++ extra)) hp]
    exact parseStep_withBits_append hstep hne extra
  · rw [decoderStep_of_foldV hp] at hstep
    rw [decoderStep_of_foldV (s := s.withBits (s.bits ++ extra)) hp]
    obtain ⟨p, hroot, rfl⟩ := foldVStep_cases hstep
    exact foldVStep_of_root hroot
  · rw [decoderStep_of_foldE hp] at hstep
    rw [decoderStep_of_foldE (s := s.withBits (s.bits ++ extra)) hp]
    obtain ⟨p, hroot, ⟨e, -, -, rfl⟩ | ⟨x, hx, rfl⟩⟩ := foldEStep_cases hstep
    · exact absurd rfl hne
    · exact foldEStep_of_eval_ok hroot hx

/-- Settles O31: `Deliver` passes every frame of the stack. -/
theorem literalThatEndsTheParse : Obligations.LiteralThatEndsTheParse := by
  intro v gs s hlt hclosed
  rw [exec_lit_of_lt hlt, deliver_of_root (deliverTo_closed_all hclosed _)]
  rfl

/-- Settles O32: `Deliver` passes the closed frames and stops at `f`, whose region or count is not full. -/
theorem literalThatLeavesAFrameOpen : Obligations.LiteralThatLeavesAFrameOpen := by
  intro v gs s closed rest f hlt hstack hclosed p
  have hpass := deliverTo_closed hclosed (f :: rest) (.literal v (BitVec.ofNat 64 (groupsNumber gs)))
  rw [← hstack] at hpass
  refine ⟨fun stop he hopen => ?_, fun n he hmore => ?_⟩
  · have hopen := hpass.trans (deliverTo_region_open rest _ he hopen)
    rw [exec_lit_of_lt hlt, deliver_of_waiting hopen]
    rfl
  · have hopen := hpass.trans (deliverTo_count_open rest _ he hmore)
    rw [exec_lit_of_lt hlt, deliver_of_waiting hopen]
    rfl

/-- Settles O33: `Deliver` passes the closed frames and finds the cursor past the region of `f`. -/
theorem literalThatOvershootsARegion : Obligations.LiteralThatOvershootsARegion := by
  intro v gs s closed rest f stop hlt hstack hclosed he hpast
  have hpass := deliverTo_closed hclosed (f :: rest) (.literal v (BitVec.ofNat 64 (groupsNumber gs)))
  rw [← hstack] at hpass
  have hover := hpass.trans (deliverTo_region_past rest _ he hpast)
  rw [exec_lit_of_lt hlt, deliver_of_overshoot hover]
  rfl

/-- Settles O36: by the four things an instruction can do. -/
theorem instructionFrame : Obligations.InstructionFrame := by
  intro i s t hstep
  obtain ⟨e, pos, rfl⟩ | ⟨v, gs, rfl, ⟨st, rfl⟩ | ⟨r, rfl⟩⟩ | ⟨f, rfl⟩ := exec_cases hstep
  all_goals refine ⟨fun _ => rfl, rfl, rfl, rfl, rfl, rfl, rfl, rfl, rfl, rfl, rfl, ?_⟩
  · exact .inl rfl
  · exact .inr ⟨rfl, rfl, rfl, fun hop => absurd rfl (hop v gs)⟩
  · exact .inr ⟨rfl, rfl, rfl, fun hop => absurd rfl (hop v gs)⟩
  · exact .inr ⟨rfl, rfl, rfl, fun _ => ⟨rfl, rfl, f, rfl⟩⟩

/-- Settles O19: in PARSE the decoder's step is `exec` of what it has decoded, with the turn taken off first. -/
theorem stepRunsTheDecodedInstruction : Obligations.StepRunsTheDecodedInstruction := by
  intro s i rest hphase hdec
  refine ⟨fun hturns => (step_of_parse hphase hturns).trans (parseStep_of_instr hdec), fun ts hturns => ?_⟩
  rw [step_of_decoder_turn (.inr hturns), hturns, List.tail_cons]
  exact (decoderStep_of_parse (s := { s with turns := ts }) hphase).trans (parseStep_of_instr hdec)

end

section
/-! SUPPORT. LIT at the limits (R150 to R152): a literal that is cut, a literal past `2^63 - 1`, and the group strings that
stand for a given number. -/

namespace Sys2Proof

/-! ### Cut literals (R150) -/

theorem readGroups_of_short {bs : List Bool} (h : bs.length < 5) : readGroups bs = .cut [] := by
  unfold readGroups
  split
  · simp only [List.length_cons] at h
    omega
  · rfl

/-- Groups that all have flag 1 are read one after another until the bits run out. -/
theorem readGroups_openGroups (gs : List Nibble) {tail : List Bool} (h : tail.length < 5) :
    readGroups (gs.flatMap (fun g => true :: bitsOf 4 g.toNat) ++ tail) = .cut gs := by
  induction gs with
  | nil => exact readGroups_of_short h
  | cons g gs ih => rw [List.flatMap_cons, List.append_assoc, readGroups_bitsOf, if_pos rfl, ih, Groups.push]

/-- A cut literal is rejected by the number of the groups it has (R150 corners c and e). -/
theorem decode_cutLiteral (v : Version) (gs : List Nibble) {tail : List Bool} (h : tail.length < 5) :
    decode (bitsOf 3 v.toNat ++ bitsOf 3 4 ++ gs.flatMap (fun g => true :: bitsOf 4 g.toNat) ++ tail) =
      .reject (if groupsNumber gs < 2 ^ 63 then .endOfBits else .literalOverflow) := by
  rw [List.append_assoc]
  refine (decode_literal_header v _).trans ?_
  simp only [decodeLiteral, readGroups_openGroups gs h, literalValue_eq]
  by_cases hlt : groupsNumber gs < 2 ^ 63
  · simp only [if_pos hlt, reduceCtorEq, if_false]
  · simp only [if_neg hlt, if_true]

/-! ### The group strings of a number (R97, R152) -/

/-- The low `4 * k` bits of a number as `k` groups, the most significant first (R97). -/
def groupsOf : Nat → Nat → List Nibble
  | 0, _ => []
  | k + 1, v => BitVec.ofNat 4 (v / 16 ^ k) :: groupsOf k v

@[simp] theorem groupsOf_length (k v : Nat) : (groupsOf k v).length = k := by
  induction k with
  | zero => rfl
  | succ k ih => rw [groupsOf, List.length_cons, ih]

theorem groupsNumber_groupsOf (k v : Nat) : groupsNumber (groupsOf k v) = v % 16 ^ k := by
  induction k with
  | zero => rw [pow_zero, Nat.mod_one]; rfl
  | succ k ih =>
    rw [groupsOf, groupsNumber, groupsOf_length, ih, BitVec.toNat_ofNat, Nat.mod_pow_succ (b := 16), Nat.add_comm, Nat.mul_comm]

/-- Leading zero groups do not change the number (R152). -/
theorem groupsNumber_zeros_append (zeros : Nat) (gs : List Nibble) :
    groupsNumber (List.replicate zeros 0#4 ++ gs) = groupsNumber gs := by
  induction zeros with
  | zero => rfl
  | succ zeros ih => simp [List.replicate_succ, groupsNumber, ih]

/-- The word of a literal in range, read as signed, is the literal's number (R12, R151). -/
theorem toInt_ofNat_of_inRange {n : Nat} (h : n < 2 ^ 63) : (BitVec.ofNat 64 n).toInt = n := by
  have hn : (BitVec.ofNat 64 n).toNat = n := Nat.mod_eq_of_lt (by omega)
  rw [BitVec.toInt_eq_toNat_of_lt (by omega), hn]

end Sys2Proof

namespace Sys2Proof.Machine

/-- A literal past `2^63 - 1` faults at its first bit (R151). -/
theorem exec_lit_of_ge {v : Version} {gs : List Nibble} {s : State} (h : 2 ^ 63 ≤ groupsNumber gs) :
    exec (.lit v gs) s = .next (takeFault .arithmeticOverflow s.cur s) := by
  obtain ⟨-, heq⟩ | ⟨hlt, -⟩ := execLit_cases v gs s
  · exact heq
  · omega

/-- With no frame open a literal in range is the root (R134, R150). -/
theorem exec_lit_of_stack_nil {v : Version} {gs : List Nibble} {s : State} (hlt : groupsNumber gs < 2 ^ 63)
    (hstack : s.stack = []) :
    exec (.lit v gs) s = .next
      { s with
        cur := s.cur + BitVec.ofNat 32 (6 + 5 * gs.length)
        root := some (.literal v (BitVec.ofNat 64 (groupsNumber gs))), phase := .foldV } := by
  have hroot : deliverTo (s.cur + BitVec.ofNat 32 (6 + 5 * gs.length)) s.stack
      (.literal v (BitVec.ofNat 64 (groupsNumber gs))) = .root (.literal v (BitVec.ofNat 64 (groupsNumber gs))) := by
    rw [hstack]
    rfl
  rw [exec_lit_of_lt hlt, deliver_of_root hroot, ← hstack]

/-- A PARSE step on an encoding at `CUR` is `exec` of its instruction (R131). -/
theorem step_of_encode {s : State} {i : Instr} {rest : List Bool} (hphase : s.phase = .parse) (hturns : s.turns = [])
    (henc : i.encodable = true) (hbits : s.bits.drop s.cur.toNat = encode i ++ rest) : step s = exec i s := by
  have hdec : decode (s.bits.drop s.cur.toNat) = .instr i rest := by rw [hbits, decode_encode henc]
  exact (step_of_parse hphase hturns).trans (parseStep_of_instr hdec)

end Sys2Proof.Machine
end

section

open Sys2Proof Sys2Proof.Machine

/-- Settles O21: the decoder reads the groups up to the cut and rejects by their number. -/
theorem cutLiteralFaults : Obligations.CutLiteralFaults := by
  intro s v gs tail hphase hturns hbits htail
  have hdec := decode_cutLiteral v gs htail
  rw [← hbits] at hdec
  have hstep := (step_of_parse hphase hturns).trans (parseStep_of_reject hdec)
  refine ⟨fun hlt => ?_, fun hge => ?_⟩
  · rw [hstep, if_pos hlt]
    rfl
  · rw [hstep, if_neg (Nat.not_lt.mpr hge)]
    rfl

/-- Settles O34: the range test of `LIT` comes before its delivery. -/
theorem literalOverflowFaults : Obligations.LiteralOverflowFaults :=
  fun _ _ _ hge => exec_lit_of_ge hge

/-- Settles O35: the step is `exec` of the literal, by cases on its range; 16 groups hold any 64-bit value. -/
theorem literalRoundTrip : Obligations.LiteralRoundTrip := by
  refine ⟨fun s ver gs rest hphase hturns hstack hne hbits => ?_, fun x zeros => ?_⟩
  · have hstep := step_of_encode hphase hturns (by simpa [Instr.encodable] using hne) hbits
    refine ⟨fun hle => ⟨BitVec.ofNat 64 (groupsNumber gs), ?_, ?_⟩, fun hge => hstep.trans (exec_lit_of_ge hge)⟩
    · exact toInt_ofNat_of_inRange (by omega)
    · exact hstep.trans (exec_lit_of_stack_nil (by omega) hstack)
  · have hx : groupsNumber (groupsOf 16 x.toNat) = x.toNat := by
      rw [groupsNumber_groupsOf]
      exact Nat.mod_eq_of_lt x.isLt
    exact ⟨groupsOf 16 x.toNat, List.cons_ne_nil _ _, hx, (groupsNumber_zeros_append zeros _).trans hx⟩

end

section
/-! SUPPORT. The depth guard (R164): an operator head that is not empty, with no room on the stack and with room; and
delivering a packet, which never adds a frame. -/

namespace Sys2Proof.Machine

/-! ### Operator heads that are not empty (R161, R162, R164) -/

section Heads

variable (k : OpKind) (v : Version) {l : Length} {n : Count} {s : State}

theorem headL_of_full (hl : l ≠ 0#15) (hfull : s.params.maxDepth ≤ s.depth) :
    headL k v l s = .next (takeFault .recursionLimitExceeded s.cur s) :=
  (if_neg hl).trans (if_pos hfull)

theorem headL_of_room (hl : l ≠ 0#15) (hroom : s.depth < s.params.maxDepth) :
    headL k v l s = .next (pushFrame
      { ver := v, typeId := k.typeId, extent := .region (regionEnd s.cur l), start := s.cur, subs := [] } 22 s) :=
  (if_neg hl).trans (if_neg (Nat.not_le_of_lt hroom))

theorem headN_of_full (hn : n ≠ 0#11) (hfull : s.params.maxDepth ≤ s.depth) :
    headN k v n s = .next (takeFault .recursionLimitExceeded s.cur s) :=
  (if_neg hn).trans (if_pos hfull)

theorem headN_of_room (hn : n ≠ 0#11) (hroom : s.depth < s.params.maxDepth) :
    headN k v n s = .next (pushFrame
      { ver := v, typeId := k.typeId, extent := .count n, start := s.cur, subs := [] } 18 s) :=
  (if_neg hn).trans (if_neg (Nat.not_le_of_lt hroom))

end Heads

@[simp] theorem takeFault_depth (e : ErrCode) (pos : Pos) (s : State) : (takeFault e pos s).depth = s.depth := rfl

@[simp] theorem pushFrame_depth (f : Frame) (n : Nat) (s : State) : (pushFrame f n s).depth = s.depth + 1 := rfl

/-! ### Deliver and the depth (R133) -/

/-- What `Deliver` does at the innermost frame: it overshoots, leaves a frame open in its place, or closes it. -/
theorem deliverTo_cons_cases (cur : Pos) (f : Frame) (rest : List Frame) (p : Packet) :
    deliverTo cur (f :: rest) p = .overshoot f.start ∨
    (∃ g, deliverTo cur (f :: rest) p = .waiting (g :: rest)) ∨
    deliverTo cur (f :: rest) p = deliverTo cur rest (f.append p).close := by
  cases he : f.extent with
  | region stop =>
    by_cases hpast : stop < cur
    · exact .inl (deliverTo_region_past rest p he hpast)
    · by_cases hopen : cur < stop
      · exact .inr (.inl ⟨_, deliverTo_region_open rest p he hopen⟩)
      · obtain rfl : stop = cur := BitVec.le_antisymm (BitVec.not_lt.mp hopen) (BitVec.not_lt.mp hpast)
        exact .inr (.inr (deliverTo_region_full rest p he))
  | count left =>
    by_cases hmore : 1 < left.toNat
    · exact .inr (.inl ⟨_, deliverTo_count_open rest p he hmore⟩)
    · exact .inr (.inr (deliverTo_count_last rest p he hmore))

/-- The frames still open after a delivery are no more than were open before. -/
theorem deliverTo_waiting_length_le {cur : Pos} {stack st : List Frame} {p : Packet}
    (h : deliverTo cur stack p = .waiting st) : st.length ≤ stack.length := by
  induction stack generalizing p with
  | nil => cases h
  | cons f rest ih =>
    obtain heq | ⟨g, heq⟩ | heq := deliverTo_cons_cases cur f rest p
    · cases heq.symm.trans h
    · cases heq.symm.trans h
      exact Nat.le_refl _
    · exact Nat.le_succ_of_le (ih (heq.symm.trans h))

theorem deliver_depth_le (p : Packet) (cur : Pos) (s : State) : (deliver p cur s).depth ≤ s.depth := by
  obtain ⟨st, hwait, heq⟩ | ⟨r, -, heq⟩ | ⟨a, -, heq⟩ := deliver_cases p cur s
  all_goals rw [heq]
  · exact deliverTo_waiting_length_le hwait
  · exact Nat.zero_le _
  · exact (takeFault_depth _ a s).le

theorem execLit_depth_le (v : Version) (gs : List Nibble) (s : State) :
    ∃ t, execLit v gs s = .next t ∧ t.depth ≤ s.depth := by
  obtain ⟨-, heq⟩ | ⟨-, heq⟩ := execLit_cases v gs s
  · exact ⟨_, heq, (takeFault_depth _ _ s).le⟩
  · exact ⟨_, heq, deliver_depth_le _ _ s⟩

end Sys2Proof.Machine
end

section

open Sys2Proof Sys2Proof.Machine

/-- Settles O30: the depth test of the two heads, and a literal that faults or is delivered. -/
theorem depthGuardCountsOperators : Obligations.DepthGuardCountsOperators := by
  refine ⟨fun i k v s hform => ?_, execLit_depth_le⟩
  rw [exec_eq_form]
  obtain ⟨l, hl, hform⟩ | ⟨n, hn, hform⟩ := hform
  · rw [hform]
    exact ⟨headL_of_full k v hl, fun hroom => ⟨_, headL_of_room k v hl hroom, pushFrame_depth _ _ s, rfl⟩⟩
  · rw [hform]
    exact ⟨headN_of_full k v hn, fun hroom => ⟨_, headN_of_room k v hn hroom, pushFrame_depth _ _ s, rfl⟩⟩

/-- Settles O25: each is `HeadL` of its operation. -/
theorem aggregateTotalHeadsPushAFrame : Obligations.AggregateTotalHeadsPushAFrame :=
  fun v _ _ hl hroom =>
    ⟨headL_of_room .sum v hl hroom, headL_of_room .prod v hl hroom, headL_of_room .min v hl hroom,
      headL_of_room .max v hl hroom⟩

/-- Settles O26: each is `HeadN` of its operation. -/
theorem aggregateCountHeadsPushAFrame : Obligations.AggregateCountHeadsPushAFrame :=
  fun v _ _ hn hroom =>
    ⟨headN_of_room .sum v hn hroom, headN_of_room .prod v hn hroom, headN_of_room .min v hn hroom,
      headN_of_room .max v hn hroom⟩

/-- Settles O27: each is `HeadL` of its operation, which does not look at the sub-packets to come. -/
theorem comparisonTotalHeadsPushAFrame : Obligations.ComparisonTotalHeadsPushAFrame :=
  fun v _ _ hl hroom =>
    ⟨headL_of_room .gt v hl hroom, headL_of_room .lt v hl hroom, headL_of_room .eq v hl hroom⟩

/-- Settles O28: each is `HeadN` of its operation, whose only test of `N` is against 0. -/
theorem comparisonCountHeadsPushAFrame : Obligations.ComparisonCountHeadsPushAFrame :=
  fun v _ _ hn hroom =>
    ⟨headN_of_room .gt v hn hroom, headN_of_room .lt v hn hroom, headN_of_room .eq v hn hroom⟩

end

section
/-! SUPPORT. `VSumOf` by the two formats of a packet, the sum over sub-packets as the sum of a list (R180), and the
FOLD_V step with no turn pending (R181). -/

namespace Sys2Proof.Machine

@[simp] theorem Packet.vsumOf_literal (v : Version) (x : Value) : (Packet.literal v x).vsumOf = v.toNat := by
  rw [Packet.vsumOf]

@[simp] theorem Packet.vsumOf_operator (v : Version) (t : TypeId) (subs : Packets) :
    (Packet.operator v t subs).vsumOf = v.toNat + subs.vsumAll := by
  rw [Packet.vsumOf]

@[simp] theorem Packets.vsumAll_ofList (ps : List Packet) :
    (Packets.ofList ps).vsumAll = (ps.map Packet.vsumOf).sum := by
  induction ps with
  | nil => rw [Packets.ofList, Packets.vsumAll, List.map_nil, List.sum_nil]
  | cons p ps ih => rw [Packets.ofList, Packets.vsumAll, ih, List.map_cons, List.sum_cons]

/-- A FOLD_V step with no turn pending is `foldVStep` (R181). -/
theorem step_of_foldV {s : State} (hphase : s.phase = .foldV) (hturns : s.turns = []) : step s = foldVStep s :=
  (step_of_turns_nil hturns).trans (decoderStep_of_foldV hphase)

end Sys2Proof.Machine
end

section

open Sys2Proof Sys2Proof.Machine

/-- Settles O38: the two equations of `VSumOf`, in which neither a type id nor a literal's value appears, and the sum
over sub-packets by induction on their list. -/
theorem versionSumOfATree : Obligations.VersionSumOfATree := by
  refine ⟨Packet.vsumOf_literal, fun v t ps => ?_, fun v t t' ps => ?_, fun v x x' => ?_⟩
  · rw [Packet.vsumOf_operator, Packets.vsumAll_ofList]
  · rw [Packet.vsumOf_operator, Packet.vsumOf_operator]
  · rw [Packet.vsumOf_literal, Packet.vsumOf_literal]

/-- Settles O39: the step is `foldVStep` with a packet in `ROOT`; under the invariant at least 11 bits a packet leave
room for 7 a packet in `VSUM`. -/
theorem foldVStepDeliversTheVersionSum : Obligations.FoldVStepDeliversTheVersionSum :=
  fun _ _ hphase hturns hroot =>
    ⟨(step_of_foldV hphase hturns).trans (foldVStep_of_root hroot), fun hinv => hinv.vsum_toNat hroot⟩

end

section
/-! SUPPORT. The operations on values (R185, R187): when each gives a result and which one, the faults an operator node
raises itself, and the range test of its result (R186). -/

namespace Sys2Proof.Machine

/-! ### Chk64 (R186) -/

theorem chk64_of_inRange {r : Int} (h : -2 ^ 63 ≤ r ∧ r ≤ 2 ^ 63 - 1) : chk64 r = .ok r := if_pos h

/-- The result of a comparison is in range. -/
theorem chk64_ite (c : Prop) [Decidable c] : chk64 (if c then 1 else 0) = .ok (if c then 1 else 0) := by
  split <;> exact chk64_of_inRange (by omega)

theorem chk64_eq_error {r : Int} {e : ErrCode} (h : chk64 r = .error e) : e = .arithmeticOverflow := by
  unfold chk64 at h
  split at h <;> cases h
  rfl

/-! ### The aggregates (R185) -/

theorem evalSum_eq_ok_iff {xs : List Int} {r : Int} : evalSum xs = .ok r ↔ xs ≠ [] ∧ r = xs.sum := by
  cases xs with
  | nil => simp [evalSum]
  | cons x xs => simp [evalSum, List.sum_eq_foldl, eq_comm]

theorem evalProd_eq_ok_iff {xs : List Int} {r : Int} : evalProd xs = .ok r ↔ xs ≠ [] ∧ r = xs.prod := by
  cases xs with
  | nil => simp [evalProd]
  | cons x xs => simp [evalProd, List.prod_eq_foldl, eq_comm]

/-- The fold of `MIN` is that of the library's `min`, and so for `MAX`. -/
theorem evalMin_cons (x : Int) (xs : List Int) : evalMin (x :: xs) = .ok (xs.foldl min x) := by
  have hop : (fun a b : Int => if b < a then b else a) = min := by
    funext a b; split <;> omega
  rw [evalMin, hop]

theorem evalMax_cons (x : Int) (xs : List Int) : evalMax (x :: xs) = .ok (xs.foldl max x) := by
  have hop : (fun a b : Int => if a < b then b else a) = max := by
    funext a b; split <;> omega
  rw [evalMax, hop]

theorem evalMin_eq_ok_iff {xs : List Int} {m : Int} : evalMin xs = .ok m ↔ m ∈ xs ∧ ∀ x ∈ xs, m ≤ x := by
  rw [← List.min?_eq_some_iff]
  cases xs with
  | nil => simp [evalMin]
  | cons x xs => rw [evalMin_cons, List.min?_cons', Except.ok.injEq, Option.some.injEq]

theorem evalMax_eq_ok_iff {xs : List Int} {m : Int} : evalMax xs = .ok m ↔ m ∈ xs ∧ ∀ x ∈ xs, x ≤ m := by
  rw [← List.max?_eq_some_iff]
  cases xs with
  | nil => simp [evalMax]
  | cons x xs => rw [evalMax_cons, List.max?_cons', Except.ok.injEq, Option.some.injEq]

theorem exists_evalMin {xs : List Int} (h : xs ≠ []) : ∃ m, evalMin xs = .ok m := by
  obtain ⟨x, xs, rfl⟩ := List.exists_cons_of_ne_nil h
  exact ⟨_, evalMin_cons x xs⟩

theorem exists_evalMax {xs : List Int} (h : xs ≠ []) : ∃ m, evalMax xs = .ok m := by
  obtain ⟨x, xs, rfl⟩ := List.exists_cons_of_ne_nil h
  exact ⟨_, evalMax_cons x xs⟩

/-! ### Any operation -/

/-- The one fault of an operation is a wrong number of operands (R190). -/
theorem combine_eq_error {k : OpKind} {xs : List Int} {e : ErrCode} (h : combine k xs = .error e) :
    e = .arityMismatch := by
  cases k with
  | sum | prod | min | max => cases xs <;> cases h; rfl
  | gt | lt | eq =>
    simp only [combine, evalGt, evalLt, evalEq] at h
    split at h <;> cases h
    rfl

/-- No operation leaves the non-negative integers (R192). -/
theorem combine_nonneg {k : OpKind} {xs : List Int} {r : Int} (hxs : ∀ x ∈ xs, 0 ≤ x) (h : combine k xs = .ok r) :
    0 ≤ r := by
  cases k with
  | sum =>
    obtain ⟨-, rfl⟩ := evalSum_eq_ok_iff.mp h
    exact List.sum_nonneg hxs
  | prod =>
    obtain ⟨-, rfl⟩ := evalProd_eq_ok_iff.mp h
    exact List.prod_nonneg hxs
  | min => exact hxs r (evalMin_eq_ok_iff.mp h).1
  | max => exact hxs r (evalMax_eq_ok_iff.mp h).1
  | gt | lt | eq =>
    simp only [combine, evalGt, evalLt, evalEq] at h
    split at h <;> cases h
    split <;> decide

/-- The result of an aggregate does not depend on the order of its operands (R185). -/
theorem combine_ok_of_perm {k : OpKind} {xs ys : List Int} {r : Int} (hk : k ∈ [OpKind.sum, .prod, .min, .max])
    (hperm : xs.Perm ys) (h : combine k xs = .ok r) : combine k ys = .ok r := by
  have hnil : xs ≠ [] → ys ≠ [] := fun hne hys => hne (hys ▸ hperm).eq_nil
  cases k with
  | sum =>
    obtain ⟨hne, hr⟩ := evalSum_eq_ok_iff.mp h
    exact evalSum_eq_ok_iff.mpr ⟨hnil hne, hr.trans hperm.sum_eq⟩
  | prod =>
    obtain ⟨hne, hr⟩ := evalProd_eq_ok_iff.mp h
    exact evalProd_eq_ok_iff.mpr ⟨hnil hne, hr.trans hperm.prod_eq⟩
  | min =>
    obtain ⟨hmem, hle⟩ := evalMin_eq_ok_iff.mp h
    exact evalMin_eq_ok_iff.mpr ⟨hperm.mem_iff.mp hmem, fun x hx => hle x (hperm.mem_iff.mpr hx)⟩
  | max =>
    obtain ⟨hmem, hle⟩ := evalMax_eq_ok_iff.mp h
    exact evalMax_eq_ok_iff.mpr ⟨hperm.mem_iff.mp hmem, fun x hx => hle x (hperm.mem_iff.mpr hx)⟩
  | gt | lt | eq => simp at hk

theorem combine_eq_of_perm {k : OpKind} {xs ys : List Int} (hk : k ∈ [OpKind.sum, .prod, .min, .max])
    (hperm : xs.Perm ys) : combine k xs = combine k ys := by
  cases hx : combine k xs with
  | ok r => exact (combine_ok_of_perm hk hperm hx).symm
  | error e =>
    cases hy : combine k ys with
    | ok r => cases hx.symm.trans (combine_ok_of_perm hk hperm.symm hy)
    | error e' => rw [combine_eq_error hx, combine_eq_error hy]

/-! ### The result of a node (R186, R187) -/

theorem opResult_eq_bind (k : OpKind) (xs : List Int) : opResult k xs = (combine k xs).bind chk64 := by
  unfold opResult
  cases combine k xs <;> rfl

theorem opResult_of_combine {k : OpKind} {xs : List Int} {r : Int} (h : combine k xs = .ok r) :
    opResult k xs = chk64 r := by
  rw [opResult_eq_bind, h, Except.bind]

theorem opResult_nonneg {k : OpKind} {xs : List Int} {r : Int} (hxs : ∀ x ∈ xs, 0 ≤ x) (h : opResult k xs = .ok r) :
    0 ≤ r := by
  cases hc : combine k xs with
  | error e => rw [opResult_eq_bind, hc] at h; cases h
  | ok y =>
    rw [opResult_of_combine hc] at h
    obtain ⟨rfl, -⟩ := chk64_eq_ok h
    exact combine_nonneg hxs hc

theorem opResult_eq_error {k : OpKind} {xs : List Int} {e : ErrCode} (h : opResult k xs = .error e) :
    e = .arityMismatch ∨ e = .arithmeticOverflow := by
  cases hc : combine k xs with
  | error e' =>
    rw [opResult_eq_bind, hc] at h
    cases h
    exact .inl (combine_eq_error hc)
  | ok y =>
    rw [opResult_of_combine hc] at h
    exact .inr (chk64_eq_error h)

end Sys2Proof.Machine
end

section
/-! SUPPORT. `Eval` by the tests it makes, in their order (R187): the type, the arity, the sub-packets, the result; and
what it gives on the trees the parser builds (R134, R189, R192). -/

namespace Sys2Proof.Machine

/-- The type ids of the aggregates ask for one sub-packet at least (R185). -/
theorem exists_opKind_of_aggregate {t : TypeId} (h : t ∈ [0#3, 1#3, 2#3, 3#3]) :
    ∃ k, OpKind.ofTypeId t = some k ∧ ∀ n, arityOk k n = decide (1 ≤ n) := by
  simp only [List.mem_cons, List.not_mem_nil, or_false] at h
  obtain rfl | rfl | rfl | rfl := h
  · exact ⟨.sum, rfl, fun _ => rfl⟩
  · exact ⟨.prod, rfl, fun _ => rfl⟩
  · exact ⟨.min, rfl, fun _ => rfl⟩
  · exact ⟨.max, rfl, fun _ => rfl⟩

/-- The type ids of the comparisons ask for exactly two sub-packets (R185). -/
theorem exists_opKind_of_comparison {t : TypeId} (h : t ∈ [5#3, 6#3, 7#3]) :
    ∃ k, OpKind.ofTypeId t = some k ∧ ∀ n, arityOk k n = decide (n = 2) := by
  simp only [List.mem_cons, List.not_mem_nil, or_false] at h
  obtain rfl | rfl | rfl := h
  · exact ⟨.gt, rfl, fun _ => rfl⟩
  · exact ⟨.lt, rfl, fun _ => rfl⟩
  · exact ⟨.eq, rfl, fun _ => rfl⟩

@[simp] theorem Packets.length_ofList (ps : List Packet) : (Packets.ofList ps).length = ps.length := by
  induction ps with
  | nil => rfl
  | cons p ps ih => rw [Packets.ofList, Packets.length, ih, List.length_cons]

/-! ### The tests of a node -/

@[simp] theorem Packet.eval_literal (v : Version) (x : Value) : (Packet.literal v x).eval = .ok x.toInt := by
  rw [Packet.eval]

section Node

variable {t : TypeId} {k : OpKind} {subs : Packets}

theorem Packet.eval_of_unknown (v : Version) (ht : OpKind.ofTypeId t = none) :
    (Packet.operator v t subs).eval = .error .unknownOperator := by
  simp only [Packet.eval, ht]

theorem Packet.eval_of_wrongArity (v : Version) (ht : OpKind.ofTypeId t = some k)
    (harity : arityOk k subs.length = false) : (Packet.operator v t subs).eval = .error .arityMismatch := by
  simp [Packet.eval, ht, harity]

/-- With type and arity in order a node's value is the operation's result on the values of its sub-packets. -/
theorem Packet.eval_of_arityOk (v : Version) (ht : OpKind.ofTypeId t = some k)
    (harity : arityOk k subs.length = true) : (Packet.operator v t subs).eval = subs.evalAll.bind (opResult k) := by
  cases hsubs : subs.evalAll <;> simp [Packet.eval, ht, harity, hsubs, Except.bind]

/-- Every fault of an operator: its type is unknown, a sub-packet faults, or it takes one of its own. -/
theorem Packet.eval_operator_eq_error {v : Version} {e : ErrCode} (h : (Packet.operator v t subs).eval = .error e) :
    (OpKind.ofTypeId t = none ∧ e = .unknownOperator) ∨ subs.evalAll = .error e ∨ e = .arityMismatch ∨
      e = .arithmeticOverflow := by
  cases ht : OpKind.ofTypeId t with
  | none => cases (Packet.eval_of_unknown v ht).symm.trans h; exact .inl ⟨rfl, rfl⟩
  | some k =>
    cases harity : arityOk k subs.length with
    | false => cases (Packet.eval_of_wrongArity v ht harity).symm.trans h; exact .inr (.inr (.inl rfl))
    | true =>
      rw [Packet.eval_of_arityOk v ht harity] at h
      cases hsubs : subs.evalAll with
      | error e' => rw [hsubs] at h; cases h; exact .inr (.inl rfl)
      | ok xs => rw [hsubs] at h; exact .inr (.inr (opResult_eq_error h))

end Node

/-! ### The sub-packets, left to right -/

theorem Packets.evalAll_cons {p : Packet} {x : Int} (hp : p.eval = .ok x) (ps : Packets) :
    (Packets.cons p ps).evalAll = ps.evalAll.map (x :: ·) := by
  cases hps : ps.evalAll <;> simp [Packets.evalAll, hp, hps, Except.map]

theorem Packets.evalAll_cons_error {p : Packet} {e : ErrCode} (hp : p.eval = .error e) (ps : Packets) :
    (Packets.cons p ps).evalAll = .error e := by
  simp only [Packets.evalAll, hp]

theorem Packets.evalAll_cons_eq_ok {p : Packet} {ps : Packets} {xs : List Int}
    (h : (Packets.cons p ps).evalAll = .ok xs) : ∃ y ys, p.eval = .ok y ∧ ps.evalAll = .ok ys ∧ xs = y :: ys := by
  cases hp : p.eval with
  | error e => cases (Packets.evalAll_cons_error hp ps).symm.trans h
  | ok y =>
    rw [Packets.evalAll_cons hp] at h
    cases hps : ps.evalAll with
    | error e => rw [hps] at h; cases h
    | ok ys => rw [hps] at h; cases h; exact ⟨y, ys, rfl, rfl, rfl⟩

theorem Packets.evalAll_cons_eq_error {p : Packet} {ps : Packets} {e : ErrCode}
    (h : (Packets.cons p ps).evalAll = .error e) : p.eval = .error e ∨ ps.evalAll = .error e := by
  cases hp : p.eval with
  | error e' => cases (Packets.evalAll_cons_error hp ps).symm.trans h; exact .inl rfl
  | ok y =>
    rw [Packets.evalAll_cons hp] at h
    cases hps : ps.evalAll with
    | error e' => rw [hps] at h; cases h; exact .inr rfl
    | ok ys => rw [hps] at h; cases h

/-- Sub-packets that have values go in front of what the others give. -/
theorem Packets.evalAll_append {qs : List Packet} {xs : List Int} (hqs : qs.map Packet.eval = xs.map Except.ok)
    (rs : List Packet) :
    (Packets.ofList (qs ++ rs)).evalAll = (Packets.ofList rs).evalAll.map (xs ++ ·) := by
  induction qs generalizing xs with
  | nil =>
    obtain rfl : xs = [] := by simpa using hqs.symm
    rw [List.nil_append]
    cases (Packets.ofList rs).evalAll <;> rfl
  | cons q qs ih =>
    cases xs with
    | nil => simp at hqs
    | cons x xs =>
      obtain ⟨hq, hqs⟩ : q.eval = .ok x ∧ qs.map Packet.eval = xs.map Except.ok := by simpa using hqs
      rw [List.cons_append, Packets.ofList, Packets.evalAll_cons hq, ih hqs]
      cases (Packets.ofList rs).evalAll <;> rfl

theorem Packets.evalAll_of_values {ps : List Packet} {xs : List Int} (h : ps.map Packet.eval = xs.map Except.ok) :
    (Packets.ofList ps).evalAll = .ok xs := by
  have happ := Packets.evalAll_append h []
  rwa [List.append_nil, Packets.ofList, Packets.evalAll, Except.map, List.append_nil] at happ

/-- The first fault met ends the evaluation, whatever comes after it. -/
theorem Packets.evalAll_of_firstFault {qs : List Packet} {xs : List Int} {p : Packet} {e : ErrCode}
    (hqs : qs.map Packet.eval = xs.map Except.ok) (hp : p.eval = .error e) (rs : List Packet) :
    (Packets.ofList (qs ++ p :: rs)).evalAll = .error e := by
  rw [Packets.evalAll_append hqs, Packets.ofList, Packets.evalAll_cons_error hp, Except.map]

/-- With type and arity in order, and values for all sub-packets, a node gives the operation's exact result on them if
it is in range. -/
theorem Packet.eval_of_combine (v : Version) {t : TypeId} {k : OpKind} {ps : List Packet} {xs : List Int} {r : Int}
    (ht : OpKind.ofTypeId t = some k) (hvals : ps.map Packet.eval = xs.map Except.ok)
    (harity : arityOk k xs.length = true) (hr : combine k xs = .ok r) :
    (Packet.operator v t (Packets.ofList ps)).eval = chk64 r := by
  have hlen : ps.length = xs.length := by simpa using congrArg List.length hvals
  rw [← hlen, ← Packets.length_ofList] at harity
  rw [Packet.eval_of_arityOk v ht harity, Packets.evalAll_of_values hvals, Except.bind, opResult_of_combine hr]

/-- The values of sub-packets are in range (R191). -/
theorem inRange_of_values {ps : List Packet} {xs : List Int} (hvals : ps.map Packet.eval = xs.map Except.ok) {x : Int}
    (hx : x ∈ xs) : -2 ^ 63 ≤ x ∧ x ≤ 2 ^ 63 - 1 := by
  have hmem : Except.ok x ∈ ps.map Packet.eval := hvals ▸ List.mem_map_of_mem hx
  obtain ⟨p, -, hp⟩ := List.mem_map.mp hmem
  exact Packet.eval_range hp

/-! ### Trees the parser builds (R134) -/

theorem Packet.legal_operator {v : Version} {t : TypeId} {subs : Packets}
    (h : (Packet.operator v t subs).legal = true) : t ≠ 4#3 ∧ subs.allLegal = true := by
  simp only [Packet.legal, Bool.and_eq_true, bne_iff_ne] at h
  obtain ⟨⟨hfour, -⟩, hsubs⟩ := h
  exact ⟨hfour, hsubs⟩

theorem Packets.allLegal_cons {p : Packet} {ps : Packets} :
    (Packets.cons p ps).allLegal = true ↔ p.legal = true ∧ ps.allLegal = true := by
  rw [Packets.allLegal, Bool.and_eq_true]

mutual

/-- The value of a tree the parser builds is not negative (R192). -/
theorem Packet.eval_nonneg : ∀ (p : Packet) {x : Int}, p.legal = true → p.eval = .ok x → 0 ≤ x
  | .literal _ w, x, hlegal, h => by
    obtain rfl : w.toInt = x := by simpa using h
    exact BitVec.toInt_nonneg_of_msb_false (by simpa [Packet.legal] using hlegal)
  | .operator _ _ subs, _, hlegal, h => by
    obtain ⟨k, xs, -, hsubs, hres⟩ := Packet.eval_operator_eq_ok h
    exact opResult_nonneg (Packets.evalAll_nonneg subs (Packet.legal_operator hlegal).2 hsubs) hres

theorem Packets.evalAll_nonneg :
    ∀ (ps : Packets) {xs : List Int}, ps.allLegal = true → ps.evalAll = .ok xs → ∀ x ∈ xs, 0 ≤ x
  | .nil, xs, _, h => by
    obtain rfl : [] = xs := by simpa [Packets.evalAll] using h
    simp
  | .cons p ps, xs, hlegal, h => by
    obtain ⟨hp, hps⟩ := Packets.allLegal_cons.mp hlegal
    obtain ⟨y, ys, hy, hys, rfl⟩ := Packets.evalAll_cons_eq_ok h
    exact List.forall_mem_cons.mpr ⟨Packet.eval_nonneg p hp hy, Packets.evalAll_nonneg ps hps hys⟩

end

mutual

/-- No node of a tree the parser builds is of an unknown type (R189). -/
theorem Packet.eval_ne_unknownOperator : ∀ p : Packet, p.legal = true → p.eval ≠ .error .unknownOperator
  | .literal _ _, _ => by simp
  | .operator v t subs, hlegal => by
    intro h
    obtain ⟨hfour, hsubs⟩ := Packet.legal_operator hlegal
    obtain ⟨ht, -⟩ | h | h | h := Packet.eval_operator_eq_error h
    · exact hfour (OpKind.ofTypeId_eq_none ht)
    · exact Packets.evalAll_ne_unknownOperator subs hsubs h
    · cases h
    · cases h

theorem Packets.evalAll_ne_unknownOperator :
    ∀ ps : Packets, ps.allLegal = true → ps.evalAll ≠ .error .unknownOperator
  | .nil, _ => by simp [Packets.evalAll]
  | .cons p ps, hlegal => by
    intro h
    obtain ⟨hp, hps⟩ := Packets.allLegal_cons.mp hlegal
    obtain h | h := Packets.evalAll_cons_eq_error h
    · exact Packet.eval_ne_unknownOperator p hp h
    · exact Packets.evalAll_ne_unknownOperator ps hps h

end

/-! ### The invariant and the Evaluator -/

/-- The phase facts of the invariant contain the relations between the status fields (R23). -/
theorem State.Inv.flagsAgree {s : State} (h : s.Inv) : s.flagsAgree := by
  have hfacts := h.phase
  unfold State.flagsAgree
  cases hphase : s.phase
  all_goals
    simp only [State.phaseFacts, State.clean, hphase] at hfacts
    simp [hfacts]

/-- A valid `VALUE` is that of the packet in `ROOT` (R23, R188). -/
theorem State.Inv.value_eq_eval {s : State} (h : s.Inv) (hvalid : s.valueValid = true) :
    ∃ p, s.root = some p ∧ p.eval = .ok s.value.toInt := by
  obtain ⟨hdone, -⟩ := h.flagsAgree
  have hphase : s.phase = .done := hdone.mp hvalid
  have hfacts := h.phase
  simp only [State.phaseFacts, hphase] at hfacts
  obtain ⟨-, -, -, -, -, p, hroot, -, heval⟩ := hfacts
  exact ⟨p, hroot, heval⟩

/-- A fault taken before the folds has another code, and one that `Eval` raised comes from the legal tree in `ROOT`
(R189). -/
theorem State.Inv.errcode_ne_unknownOperator {s : State} (h : s.Inv) : s.errcode ≠ .unknownOperator := by
  intro hcode
  obtain ⟨-, -, herr, -⟩ := h.flagsAgree
  have hphase : s.phase = .err := herr.mp (by simp [hcode])
  have hfacts := h.phase
  simp only [State.phaseFacts, hphase] at hfacts
  obtain ⟨-, -, -, hfold⟩ := hfacts
  split at hfold
  · obtain ⟨-, -, p, hroot, -, heval⟩ := hfold
    exact p.eval_ne_unknownOperator (h.rootLegal p hroot) (heval.trans (by rw [hcode]))
  · obtain ⟨-, -, -, hne⟩ := hfold
    exact hne hcode

/-- A FOLD_E step with no turn pending is `foldEStep` (R188). -/
theorem step_of_foldE {s : State} (hphase : s.phase = .foldE) (hturns : s.turns = []) : step s = foldEStep s :=
  (step_of_turns_nil hturns).trans (decoderStep_of_foldE hphase)

end Sys2Proof.Machine
end

section

open Sys2Proof Sys2Proof.Machine

/-- Settles O41: the exact result of each operation, which is one of the operands for `MIN` and `MAX` and so in range. -/
theorem evalOfLiteralsAndAggregates : Obligations.EvalOfLiteralsAndAggregates := by
  refine ⟨Packet.eval_literal, fun v ps xs hne hvals => ?_⟩
  have harity : decide (1 ≤ xs.length) = true := decide_eq_true (List.length_pos_iff.mpr hne)
  refine ⟨?_, ?_, ?_, ?_⟩
  · exact Packet.eval_of_combine v (k := .sum) rfl hvals harity (evalSum_eq_ok_iff.mpr ⟨hne, rfl⟩)
  · exact Packet.eval_of_combine v (k := .prod) rfl hvals harity (evalProd_eq_ok_iff.mpr ⟨hne, rfl⟩)
  · obtain ⟨m, hm⟩ := exists_evalMin hne
    obtain ⟨hmem, hle⟩ := evalMin_eq_ok_iff.mp hm
    have heval := Packet.eval_of_combine v (t := 2#3) (k := .min) rfl hvals harity hm
    exact ⟨m, hmem, hle, heval.trans (chk64_of_inRange (inRange_of_values hvals hmem))⟩
  · obtain ⟨m, hm⟩ := exists_evalMax hne
    obtain ⟨hmem, hle⟩ := evalMax_eq_ok_iff.mp hm
    have heval := Packet.eval_of_combine v (t := 3#3) (k := .max) rfl hvals harity hm
    exact ⟨m, hmem, hle, heval.trans (chk64_of_inRange (inRange_of_values hvals hmem))⟩

/-- Settles O43: the test of the number of sub-packets comes before any of them is evaluated. -/
theorem evalTestsArityFirst : Obligations.EvalTestsArityFirst := by
  refine fun v t ps => ⟨fun ht hlen => ?_, fun ht hnil => ?_⟩
  · obtain ⟨k, hk, harity⟩ := exists_opKind_of_comparison ht
    exact Packet.eval_of_wrongArity v hk (by simp [harity, hlen])
  · obtain ⟨k, hk, harity⟩ := exists_opKind_of_aggregate ht
    exact Packet.eval_of_wrongArity v hk (by simp [harity, hnil])

/-- Settles O44: the sub-packets are evaluated left to right up to the first that faults. -/
theorem evalPropagatesTheFirstFault : Obligations.EvalPropagatesTheFirstFault := by
  intro v t qs rs p xs e ht hqs hp
  obtain ⟨k, hk, harity⟩ : ∃ k, OpKind.ofTypeId t = some k ∧ arityOk k (qs ++ p :: rs).length = true := by
    obtain ht | ⟨ht, hlen⟩ := ht
    · obtain ⟨k, hk, harity⟩ := exists_opKind_of_aggregate ht
      exact ⟨k, hk, (harity _).trans (decide_eq_true (List.length_pos_iff.mpr (by simp)))⟩
    · obtain ⟨k, hk, harity⟩ := exists_opKind_of_comparison ht
      exact ⟨k, hk, (harity _).trans (decide_eq_true hlen)⟩
  rw [← Packets.length_ofList] at harity
  rw [Packet.eval_of_arityOk v hk harity, Packets.evalAll_of_firstFault hqs hp, Except.bind]

/-- Settles O45: type 4 alone is no operation's, and the invariant, which every step keeps, excludes the code. -/
theorem unknownOperatorIsUnreachable : Obligations.UnknownOperatorIsUnreachable := by
  refine ⟨fun v t subs ht => Packet.eval_of_unknown v ?_, fun s t h hstep => ?_⟩
  · revert t; decide
  · exact (everyStepKeepsTheInvariant s t h hstep).errcode_ne_unknownOperator

/-- Settles O46: a literal has 64 bits, and an operator's result has passed `Chk64`. -/
theorem evalIsInRange : Obligations.EvalIsInRange := fun _ _ => Packet.eval_range

/-- Settles O47: by induction over the tree; a valid `VALUE` is that of the tree in `ROOT`, which the parser built. -/
theorem parsedTreesAreNonNegative : Obligations.ParsedTreesAreNonNegative := by
  refine ⟨fun p v hlegal h => ⟨p.eval_nonneg hlegal h, (Packet.eval_range h).2⟩, fun s hinv hvalid => ?_⟩
  obtain ⟨p, hroot, heval⟩ := hinv.value_eq_eval hvalid
  have hnonneg : 0 ≤ s.value.toInt := p.eval_nonneg (hinv.rootLegal p hroot) heval
  rw [BitVec.msb_eq_toInt]
  exact decide_eq_false (by omega)

/-- Settles O48: sum, product, least and greatest do not depend on the order, and the range test sees them alone. -/
theorem aggregateOrderIsIrrelevant : Obligations.AggregateOrderIsIrrelevant := by
  intro k xs ys hk hperm
  rw [opResult_eq_bind, opResult_eq_bind, combine_eq_of_perm hk hperm]

/-- Settles O40: the step is `foldEStep` with a packet in `ROOT`, by the outcome of `Eval`. -/
theorem foldEStepDeliversTheValue : Obligations.FoldEStepDeliversTheValue :=
  fun _ _ hphase hturns hroot =>
    ⟨fun _ hv => (step_of_foldE hphase hturns).trans (foldEStep_of_eval_ok hroot hv),
      fun _ he => (step_of_foldE hphase hturns).trans (foldEStep_of_eval_error hroot he)⟩

/-- Settles O42: the operation on the two values in encoded order, whose 1 or 0 is in range. -/
theorem evalOfComparisons : Obligations.EvalOfComparisons := by
  intro v p q x y hp hq
  have hvals : [p, q].map Packet.eval = [x, y].map Except.ok := by simp [hp, hq]
  refine ⟨?_, ?_, ?_⟩
  · exact (Packet.eval_of_combine v (k := .gt) rfl hvals rfl rfl).trans (chk64_ite _)
  · exact (Packet.eval_of_combine v (k := .lt) rfl hvals rfl rfl).trans (chk64_ite _)
  · exact (Packet.eval_of_combine v (k := .eq) rfl hvals rfl rfl).trans (chk64_ite _)

end

section
/-! SUPPORT. The way into ERR (R222): of all the outcomes of the decoder's steps only a fault that is taken has that
phase. -/

namespace Sys2Proof.Machine

theorem decoderStep_of_err {s : State} (hphase : s.phase = .err) : decoderStep s = .next s := by
  simp only [decoderStep, hphase]

/-- A decoder step enters ERR only by taking a fault on the state before it (R222). -/
theorem eq_takeFault_of_decoderStep_err {s t : State} (hstep : decoderStep s = .next t) (hne : s.phase ≠ .err)
    (herr : t.phase = .err) : ∃ e pos, e ≠ .none ∧ t = takeFault e pos s := by
  cases hphase : s.phase <;> simp only [decoderStep, hphase] at hstep
  case idle | done | err => cases hstep; exact absurd herr hne
  case unpack =>
    cases hstep
    obtain ⟨pos, heq⟩ | ⟨bs, heq⟩ := unpackStep_cases s <;> rw [heq] at herr ⊢
    · exact ⟨_, pos, by simp, rfl⟩
    · cases herr
  case parse =>
    obtain ⟨e, pos, he, rfl⟩ | ⟨_, _, -, ⟨st, rfl⟩ | ⟨r, rfl⟩⟩ := parseStep_cases hstep
    · exact ⟨e, pos, he, rfl⟩
    · exact absurd herr hne
    · cases herr
  case foldV =>
    obtain ⟨p, -, rfl⟩ := foldVStep_cases hstep
    cases herr
  case foldE =>
    obtain ⟨_, -, ⟨e, he, -, rfl⟩ | ⟨x, -, rfl⟩⟩ := foldEStep_cases hstep
    · exact ⟨e, _, he, rfl⟩
    · cases herr

end Sys2Proof.Machine
end

section

open Sys2Proof Sys2Proof.Machine

/-- Settles O37: the step has taken a fault, which writes the three fields and nothing else; in ERR the decoder waits. -/
theorem faultsArePrecise : Obligations.FaultsArePrecise := by
  refine ⟨fun s t hturns hne hstep herr => ?_, fun s hturns hphase => ?_⟩
  · rw [step_of_turns_nil hturns] at hstep
    obtain ⟨e, pos, he, rfl⟩ := eq_takeFault_of_decoderStep_err hstep hne herr
    exact ⟨rfl, he⟩
  · exact (step_of_turns_nil hturns).trans (decoderStep_of_err hphase)

end

section
/-! SUPPORT. The turns still to come (R270): no move of the decoder or of the host reads or changes them, and the host's
moves taken as turns do what the moves do one after another. -/

namespace Sys2Proof.Machine

/-- `s` with other turns still to come. -/
def State.withTurns (ts : List Turn) (s : State) : State := { s with turns := ts }

/-! ### The decoder's moves -/

section DecoderMoves

variable (ts : List Turn) (s : State)

theorem deliver_withTurns (p : Packet) (cur : Pos) :
    deliver p cur (s.withTurns ts) = (deliver p cur s).withTurns ts := by
  unfold deliver
  rw [show (s.withTurns ts).stack = s.stack from rfl]
  cases deliverTo cur s.stack p <;> rfl

theorem execLit_withTurns (v : Version) (gs : List Nibble) :
    execLit v gs (s.withTurns ts) = mapNext (State.withTurns ts) (execLit v gs s) := by
  unfold execLit
  cases literalValue gs with
  | none => rfl
  | some x => exact congrArg Host.Outcome.next (deliver_withTurns ts s _ _)

theorem exec_withTurns (i : Instr) : exec i (s.withTurns ts) = mapNext (State.withTurns ts) (exec i s) := by
  rw [exec_eq_form, exec_eq_form]
  cases i.form with
  | literal v gs => exact execLit_withTurns ts s v gs
  | total k v l =>
    simp only [headL, apply_ite (mapNext (State.withTurns ts))]
    rfl
  | counted k v n =>
    simp only [headN, apply_ite (mapNext (State.withTurns ts))]
    rfl

theorem parseStep_withTurns : parseStep (s.withTurns ts) = mapNext (State.withTurns ts) (parseStep s) := by
  unfold parseStep
  rw [show (s.withTurns ts).fetch = s.fetch from rfl]
  cases s.fetch with
  | instr i rest => exact exec_withTurns ts s i
  | reject r => cases r <;> rfl

theorem unpackStep_withTurns : unpackStep (s.withTurns ts) = (unpackStep s).withTurns ts := by
  have hunpack : unpackFrom (s.withTurns ts) s.inlen.toNat 0 = unpackFrom s s.inlen.toNat 0 :=
    unpackFrom_congr (s := s.withTurns ts) (s' := s) rfl fun _ _ _ => rfl
  unfold unpackStep
  rw [show (s.withTurns ts).inlen = s.inlen from rfl, hunpack]
  cases unpackFrom s s.inlen.toNat 0 <;> rfl

theorem foldVStep_withTurns : foldVStep (s.withTurns ts) = mapNext (State.withTurns ts) (foldVStep s) := by
  unfold foldVStep
  rw [show (s.withTurns ts).root = s.root from rfl]
  cases s.root <;> rfl

theorem foldEStep_withTurns : foldEStep (s.withTurns ts) = mapNext (State.withTurns ts) (foldEStep s) := by
  unfold foldEStep
  rw [show (s.withTurns ts).root = s.root from rfl]
  cases s.root with
  | none => rfl
  | some p => cases hp : p.eval <;> simp only [hp] <;> rfl

theorem decoderStep_withTurns : decoderStep (s.withTurns ts) = mapNext (State.withTurns ts) (decoderStep s) := by
  unfold decoderStep
  rw [show (s.withTurns ts).phase = s.phase from rfl]
  cases s.phase with
  | idle | done | err => rfl
  | unpack => exact congrArg Host.Outcome.next (unpackStep_withTurns ts s)
  | parse => exact parseStep_withTurns ts s
  | foldV => exact foldVStep_withTurns ts s
  | foldE => exact foldEStep_withTurns ts s

end DecoderMoves

/-! ### The host's moves -/

section HostMoves

variable (ts : List Turn)

theorem writeReg_withTurns (n : Nat) (d : BitVec 32) (s : State) :
    (s.withTurns ts).writeReg n d = (s.writeReg n d).withTurns ts := by
  unfold State.writeReg
  split
  · simp only [State.start, apply_ite (State.withTurns ts)]
    rfl
  · simp only [State.writeInlen, apply_ite (State.withTurns ts)]
    rfl
  · rfl

theorem readReg_withTurns (n : Nat) (s : State) : (s.withTurns ts).readReg n = s.readReg n := by
  unfold State.readReg
  split <;> rfl

theorem hostMove_withTurns (m : HostMove) (s : State) :
    hostMove m (s.withTurns ts) = (hostMove m s).withTurns ts := by
  cases m with
  | writeInbuf i b =>
    simp only [hostMove, State.writeInbuf, apply_ite (State.withTurns ts)]
    rfl
  | readInbuf i => rfl
  | writeReg n d => exact writeReg_withTurns ts n d s
  | readReg n => exact congrArg (fun x => State.withTurns ts { s with hostData := x }) (readReg_withTurns ts n s)
  | reset => rfl

theorem hostMoves_withTurns (ms : List HostMove) (s : State) :
    hostMoves ms (s.withTurns ts) = (hostMoves ms s).withTurns ts := by
  induction ms generalizing s with
  | nil => rfl
  | cons m ms ih => rw [hostMoves, hostMove_withTurns, ih, hostMoves]

theorem hostMoves_append (ms ms' : List HostMove) (s : State) :
    hostMoves (ms ++ ms') s = hostMoves ms' (hostMoves ms s) := by
  induction ms generalizing s with
  | nil => rfl
  | cons m ms ih => exact ih (hostMove m s)

/-- Host moves run as turns do what they do one after another (R270). -/
theorem run_hostMoves {ms : List HostMove} {s : State} (hturns : s.turns = ms.map .host) :
    Host.Core.run core ms.length s = .next ((hostMoves ms s).withTurns []) := by
  induction ms generalizing s with
  | nil =>
    have hs : s = s.withTurns s.turns := rfl
    rw [hturns] at hs
    exact congrArg Host.Outcome.next hs
  | cons m ms ih =>
    have hrest := ih (s := hostMove m (s.withTurns (ms.map .host))) (hostMove_turns _ _)
    rw [hostMove_withTurns, hostMoves_withTurns] at hrest
    exact run_succ ((step_of_host_turn hturns).trans (congrArg _ (hostMove_withTurns _ m s))) hrest

end HostMoves

end Sys2Proof.Machine
end

section
/-! SUPPORT. The host's writes of registers (R24, R25, R29, R271, R273), and the procedure for a message (R262). -/

namespace Sys2Proof.Machine

/-! ### Writes of registers -/

theorem start_of_not_busy {s : State} (h : s.phase.busy = false) :
    s.start =
      { s with
        cur := 0#32, errpos := 0#32, errcode := .none, vsum := 0#32, value := 0#64, vsumValid := false,
        valueValid := false, bits := [], stack := [], root := none, phase := .unpack } := by
  rw [State.start, h]
  rfl

theorem writeInlen_of_stored {v : Pos} {s : State} (hbusy : s.phase.busy = false) (hv : v.toNat ≤ s.params.maxHex) :
    s.writeInlen v = { s with inlen := v } :=
  if_pos ⟨hbusy, hv⟩

theorem writeInlen_of_busy {s : State} (v : Pos) (h : s.phase.busy = true) : s.writeInlen v = s := by
  simp [State.writeInlen, h]

theorem writeReg_ctrl_of_set {d : BitVec 32} (s : State) (hd : d.getLsbD 0 = true) : s.writeReg 0 d = s.start :=
  if_pos hd

theorem writeReg_ctrl_of_clear {d : BitVec 32} (s : State) (hd : d.getLsbD 0 = false) : s.writeReg 0 d = s :=
  if_neg (ne_true_of_eq_false hd)

/-- A register that is neither `CTRL` nor `INLEN` is not written (R29). -/
theorem writeReg_of_readOnly {n : Nat} (d : BitVec 32) (s : State) (hctrl : n ≠ 0) (hinlen : n ≠ 2) :
    s.writeReg n d = s := by
  unfold State.writeReg
  split
  · exact absurd rfl hctrl
  · exact absurd rfl hinlen
  · rfl

/-- While BUSY no register is written (R273). -/
theorem writeReg_of_busy {s : State} (n : Nat) (d : BitVec 32) (h : s.phase.busy = true) : s.writeReg n d = s := by
  obtain heq | heq | heq := writeReg_cases n d s
  · exact heq.trans (start_of_busy h)
  · exact heq.trans (writeInlen_of_busy d h)
  · exact heq

/-! ### Loading the characters (R262, step 3) -/

@[simp] theorem loadMoves_length (i : Nat) (cs : List Byte) : (loadMoves i cs).length = cs.length := by
  induction cs generalizing i with
  | nil => rfl
  | cons c cs ih => simp [loadMoves, ih]

@[simp] theorem hostMoves_loadMoves_phase (i : Nat) (cs : List Byte) (s : State) :
    (hostMoves (loadMoves i cs) s).phase = s.phase := by
  induction cs generalizing i s with
  | nil => rfl
  | cons c cs ih => simp [loadMoves, hostMoves, hostMove, ih]

@[simp] theorem hostMoves_params (ms : List HostMove) (s : State) : (hostMoves ms s).params = s.params := by
  induction ms generalizing s with
  | nil => rfl
  | cons m ms ih => simp [hostMoves, ih]

theorem inbufByte_loadMoves_of_lt {i j : Nat} (h : j < i) (cs : List Byte) (s : State) :
    (hostMoves (loadMoves i cs) s).inbufByte j = s.inbufByte j := by
  induction cs generalizing i s with
  | nil => rfl
  | cons c cs ih => exact (ih (by omega) _).trans (inbufByte_writeInbuf_other (by omega) c s)

/-- Each character is in its cell: its own write puts it there, and the later ones write higher cells. -/
theorem inbufByte_loadMoves {s : State} {i k : Nat} {cs : List Byte} {c : Byte} (hbusy : s.phase.busy = false)
    (hfits : i + cs.length ≤ s.params.maxHex) (hc : cs[k]? = some c) :
    (hostMoves (loadMoves i cs) s).inbufByte (i + k) = c := by
  induction cs generalizing i k s with
  | nil => simp at hc
  | cons c₀ cs ih =>
    rw [List.length_cons] at hfits
    cases k with
    | zero =>
      obtain rfl : c₀ = c := by simpa using hc
      exact (inbufByte_loadMoves_of_lt (by omega) cs _).trans (inbufByte_writeInbuf_same hbusy (by omega))
    | succ k =>
      have hrest := ih (s := s.writeInbuf i c₀) (i := i + 1) (k := k) (by simpa using hbusy)
        (by rw [writeInbuf_params]; omega) (by simpa using hc)
      rwa [Nat.add_right_comm] at hrest

/-! ### The whole procedure (R262, steps 3 to 5) -/

@[simp] theorem messageMoves_length (cs : List Byte) : (messageMoves cs).length = cs.length + 2 := by
  simp [messageMoves]

/-- The procedure loads the characters, then writes `INLEN`, then starts. -/
theorem hostMoves_messageMoves (cs : List Byte) (s : State) :
    hostMoves (messageMoves cs) s =
      ((hostMoves (loadMoves 0 cs) s).writeInlen (BitVec.ofNat 32 cs.length)).start :=
  (hostMoves_append _ _ s).trans (writeReg_ctrl_of_set (d := 1#32) _ rfl)

end Sys2Proof.Machine
end

section
/-! SUPPORT. No stop in a run (R280): the folds, which alone can stop, find a packet in `ROOT` where the invariant
holds. -/

namespace Sys2Proof.Machine

/-- The parser has left a packet in `ROOT` (R134, R181). -/
theorem State.Inv.exists_root {s : State} (h : s.Inv) (hphase : s.phase = .foldV ∨ s.phase = .foldE) :
    ∃ p, s.root = some p := by
  have hfacts := h.phase
  obtain hphase | hphase := hphase <;> simp only [State.phaseFacts, hphase] at hfacts
  · obtain ⟨-, -, -, hroot⟩ := hfacts
    exact hroot
  · obtain ⟨-, -, -, -, -, -, -, p, hroot, -⟩ := hfacts
    exact ⟨p, hroot⟩

/-- Every decoder step from a state with the invariant answers a next state. -/
theorem decoderStep_next {s : State} (h : s.Inv) : ∃ t, decoderStep s = .next t := by
  cases hphase : s.phase with
  | idle | done | err => exact ⟨s, by simp only [decoderStep, hphase]⟩
  | unpack => exact ⟨unpackStep s, by simp only [decoderStep, hphase]⟩
  | parse =>
    rw [decoderStep_of_parse hphase]
    exact parseStep_next s
  | foldV =>
    obtain ⟨p, hroot⟩ := h.exists_root (.inl hphase)
    exact ⟨_, (decoderStep_of_foldV hphase).trans (foldVStep_of_root hroot)⟩
  | foldE =>
    obtain ⟨p, hroot⟩ := h.exists_root (.inr hphase)
    rw [decoderStep_of_foldE hphase]
    cases heval : p.eval with
    | ok x => exact ⟨_, foldEStep_of_eval_ok hroot heval⟩
    | error e => exact ⟨_, foldEStep_of_eval_error hroot heval⟩

end Sys2Proof.Machine
end

section

open Sys2Proof Sys2Proof.Machine

/-- Settles O8: the turns run as the moves do, and the moves load the characters, write `INLEN` and start; START leaves
`INBUF` and `INLEN`. -/
theorem hostLoadsAndStartsAMessage : Obligations.HostLoadsAndStartsAMessage := by
  intro s cs hbusy hfits hlegal hturns
  obtain ⟨-, hmax, -⟩ := hlegal
  have hlen : (BitVec.ofNat 32 cs.length).toNat = cs.length := by rw [BitVec.toNat_ofNat]; omega
  have hrun := run_hostMoves hturns
  rw [messageMoves_length, hostMoves_messageMoves,
    writeInlen_of_stored (by simpa using hbusy) (by simpa [hlen] using hfits),
    start_of_not_busy (by simpa using hbusy)] at hrun
  refine ⟨_, hrun, rfl, rfl, hlen, hostMoves_params _ s, fun i c hc => ?_⟩
  have hcell := inbufByte_loadMoves (i := 0) hbusy (by simpa using hfits) hc
  rwa [Nat.zero_add] at hcell

/-- Settles O9: the decoder's step neither reads nor changes the turns. -/
theorem decoderTurnIsTheDecoderStep : Obligations.DecoderTurnIsTheDecoderStep := by
  intro s ts hturns
  have hturn : step s = decoderStep ((s.withTurns []).withTurns ts) := by
    rw [step_of_decoder_turn (.inr hturns), hturns]
    rfl
  have hnone : step { s with turns := [] } = decoderStep (s.withTurns []) := step_of_turns_nil rfl
  rw [hturn, hnone, decoderStep_withTurns]
  cases decoderStep (s.withTurns []) <;> rfl

/-- Settles O51: a host move always answers a state, and so does the decoder, which never stops under the invariant. -/
theorem noStepStopsInARun : Obligations.NoStepStopsInARun := by
  intro s h
  cases hturns : s.turns with
  | nil =>
    rw [step_of_turns_nil hturns]
    exact decoderStep_next h
  | cons turn ts =>
    cases turn with
    | decoder =>
      rw [step_of_decoder_turn (.inr hturns)]
      exact decoderStep_next (h.withTurns _)
    | host m => exact ⟨_, step_of_host_turn hturns⟩

/-- Settles O2: the move writes every element of the table but `INBUF`. -/
theorem resetMoveFromAnyPhase : Obligations.ResetMoveFromAnyPhase :=
  ⟨fun _ _ hturns => step_of_host_turn hturns, fun _ => rfl, rfl⟩

/-- Settles O3: a write of `CTRL` with bit 0 set is START, which tests BUSY alone. -/
theorem startBeginsACleanMessage : Obligations.StartBeginsACleanMessage := by
  intro s d ts hturns hd
  have hstep : step s = .next (s.withTurns ts).start :=
    (step_of_host_turn hturns).trans (congrArg _ (writeReg_ctrl_of_set _ hd))
  rw [hstep]
  refine ⟨fun hphase => ?_, fun hbusy => ?_⟩
  · rw [start_of_not_busy (s := s.withTurns ts) (Phase.busy_eq_false.mpr hphase)]
    rfl
  · rw [start_of_busy (s := s.withTurns ts) hbusy]
    rfl

/-- Settles O4: each move is the identity by the rule for its write, and the read writes `hostData` alone. -/
theorem droppedWritesAndPureReads : Obligations.DroppedWritesAndPureReads := by
  intro s ts
  refine ⟨fun i b hturns hbusy => ?_, fun n d hturns hbusy => ?_, fun n d hturns hctrl hinlen => ?_,
    fun d hturns hd => ?_, fun n hturns => ?_⟩ <;> refine (step_of_host_turn hturns).trans (congrArg _ ?_)
  · exact writeInbuf_of_dropped b (.inl hbusy)
  · exact writeReg_of_busy n d hbusy
  · exact writeReg_of_readOnly d _ hctrl hinlen
  · exact writeReg_ctrl_of_clear _ hd
  · exact congrArg (fun x => { s.withTurns ts with hostData := x }) (readReg_withTurns ts n s)

/-- Settles O15: the listed bits are the encodings of the listed instructions, and decoding undoes encoding. -/
theorem listedHeadsDecode : Obligations.ListedHeadsDecode :=
  ⟨decode_encode (i := .lit 6#3 [7#4, 14#4, 5#4]) rfl [false, false, false],
    decode_encode (i := .ltL 1#3 27#15) rfl [true], decode_encode (i := .minN 4#3 1#11) rfl [],
    decode_encode (i := .sumN 6#3 2#11) rfl [], decode_encode (i := .maxN 7#3 3#11) rfl []⟩

end
